-- ==== Sys2Proof/Word.lean ====
section
/-!
DEFINITION. The cell: the one unit of data of the CVM core (00_scope.md R6, R8). Stream cells, stack entries, registers and
ALU operands are all cells. A cell has type `Int`: it is the integer `int(v)` it denotes, because every rule computes on that
integer and writes it back only where it has been shown representable (R8, R9); the invariant of Safety.lean keeps every cell of the machine inside
its `CELL_W` bits (log entry 2).
-/

namespace Sys2Proof

/-- `MIN = -2^(CELL_W-1)` (R6). -/
def cellMin (w : Nat) : Int := -((2 ^ (w - 1) : Nat) : Int)

/-- `MAX = 2^(CELL_W-1) - 1` (R6). -/
def cellMax (w : Nat) : Int := ((2 ^ (w - 1) : Nat) : Int) - 1

/-- Whether an exact integer is the value of a cell of width `w`, that is lies in `[MIN, MAX]` (R6, R9). -/
abbrev Representable (w : Nat) (x : Int) : Prop := cellMin w ≤ x ∧ x ≤ cellMax w

/-- The bits of a cell, in two's complement (R8). -/
def cellBits (w : Nat) (v : Int) : BitVec w := BitVec.ofInt w v

/-- The cell that bits denote, in two's complement (R8). -/
def cellOfBits {w : Nat} (b : BitVec w) : Int := b.toInt

end Sys2Proof
end

