-- ==== Sys2Proof/Config.lean ====
section
/-!
DEFINITION. The construction-time parameters of 00_scope.md R6 as plain data, and the reference instance's values. The
machine never changes them (10_state.md R35).
-/

namespace Sys2Proof

/-- The eight opcodes of the closed vocabulary (R2). -/
inductive Opcode where
  | psh | pop | add | sub | mul | div | set | hlt
  deriving DecidableEq, Repr

/-- `OPCODE_MAP` (R6, R63): the cell value of each opcode, and of the assembler's UNKNOWN sentinel. -/
structure OpcodeMap where
  psh : Int
  pop : Int
  add : Int
  sub : Int
  mul : Int
  div : Int
  set : Int
  hlt : Int
  unknown : Int
  deriving DecidableEq, Repr

/-- `OPCODE_MAP(mnemonic)`: the cell value of an opcode (R61, R63). -/
def OpcodeMap.value (m : OpcodeMap) : Opcode → Int
  | .psh => m.psh
  | .pop => m.pop
  | .add => m.add
  | .sub => m.sub
  | .mul => m.mul
  | .div => m.div
  | .set => m.set
  | .hlt => m.hlt

/-- The nine values of the map, the sentinel last, in the order of R63's table. -/
def OpcodeMap.values (m : OpcodeMap) : List Int :=
  [m.psh, m.pop, m.add, m.sub, m.mul, m.div, m.set, m.hlt, m.unknown]

/-- The default values of R63 (D2): the listing order from 0. -/
def OpcodeMap.standard : OpcodeMap :=
  { psh := 0, pop := 1, add := 2, sub := 3, mul := 4, div := 5, set := 6, hlt := 7, unknown := 8 }

/-- `OVF_BAND_POLICY` (R6, R128): the hardware's exact test, or a refusal of the bands two readings disagree on. -/
inductive OvfBandPolicy where
  | exactTest
  | refuseBands
  deriving DecidableEq, Repr

/-- `ASM_UNKNOWN_TOKEN_POLICY` (R6, R85). -/
inductive UnknownTokenPolicy where
  | skip
  | reject
  deriving DecidableEq, Repr

/-- The parameters of R6. `Config.wellFormed` (WellFormed.lean) says which values are legal. -/
structure Config where
  /-- `CELL_W`: the width in bits of every cell. -/
  cellW : Nat
  /-- `STACK_CAPACITY`: the number of operand-stack entries. -/
  stackCapacity : Nat
  /-- `IMEM_DEPTH`: the number of cells the instruction memory holds. -/
  imemDepth : Nat
  /-- `OPCODE_MAP`. -/
  opcodes : OpcodeMap
  /-- `OVF_BAND_POLICY`. -/
  ovfBands : OvfBandPolicy
  /-- `ASM_UNKNOWN_TOKEN_POLICY`. -/
  unknownTokens : UnknownTokenPolicy
  deriving DecidableEq, Repr

/-- The reference RTL instance: the default column of R6 (log entry 21). -/
def Config.reference : Config :=
  { cellW := 32, stackCapacity := 256, imemDepth := 4096, opcodes := OpcodeMap.standard,
    ovfBands := .exactTest, unknownTokens := .skip }

end Sys2Proof
end

