-- ==== Sys2Proof/Machine/State.lean ====
section
/-!
DEFINITION. The state of the machine (10_state.md R20 to R37) as plain data, the reasons a step stops, and the state right
after reset (70_reset_and_hazards.md R170). A halt of the machine is no stop of the model: it is a next state with RUNNING = 0
(60_exceptions.md R149).
-/

namespace Sys2Proof.Machine

/-- The names of the register file's entries, in the order of R21. -/
inductive Reg where
  | a | b | c | d | e | f | ip | sp
  deriving DecidableEq, Repr

/-- The register file (R20): IP and SP are entries of it (R21). -/
structure RegFile where
  a : Int
  b : Int
  c : Int
  d : Int
  e : Int
  f : Int
  ip : Int
  sp : Int
  deriving DecidableEq, Repr

/-- The values of HALT_CAUSE (R32, R141), in the order of their codes 0 to 7. -/
inductive HaltCause where
  | normal
  | stackOverflow
  | stackUnderflow
  | unknownOpcode
  | unimplementedOpcode
  | arithmeticOverflow
  | divisionByZero
  | missingHalt
  deriving DecidableEq, Repr

/-- The four binary operations (R110). -/
inductive ArithOp where
  | add | sub | mul | div
  deriving DecidableEq, Repr

/-- A record of the output trace (R47): `(POP, —, —, value)`, or `(op, left, right, value)`. -/
inductive OutRecord where
  | popped (value : Int)
  | computed (op : ArithOp) (left right value : Int)
  deriving DecidableEq, Repr

/-- Cells by index: strictly rising indices, each index that holds a value listed once. An index that is not listed holds
no value. The same form holds the stack RAM and the instruction memory (log entries 1, 4 and 6). -/
abbrev Memory := List (Nat × Int)

/-- The whole state (R37), with the parameters (R6) and the loaded instruction memory (R35), which no step writes
(log entries 3 and 4). -/
structure State where
  /-- The construction-time parameters of R6. -/
  cfg : Config
  /-- The register file (R20). -/
  regs : RegFile
  /-- The operand-stack RAM (R26). -/
  stk : Memory
  /-- RUNNING (R30). -/
  running : Bool
  /-- HALT_CAUSE (R32). -/
  haltCause : HaltCause
  /-- STREAM_LEN, the unsigned N of `CELL_W` bits (R24, R33). -/
  streamLen : Nat
  /-- The output trace, oldest record first (R34). -/
  trace : List OutRecord
  /-- The instruction memory's cells (R40), loaded by the host (R177). -/
  imem : Memory
  deriving DecidableEq, Repr

/-- Why the machine stops without a next state. No state of `Safety.lean`'s invariant raises one (R29, R54). -/
inductive Fault where
  /-- A read of a stack entry nothing has written since reset, which holds no value (R29, R175). Raised by POP and the
  arithmetic instructions. Safe: the model stops where the hardware would read an unspecified value. -/
  | stackEntryUnwritten
  /-- A stack access at an index outside `0 … STACK_CAPACITY-1`, which does not exist (R10, R26). Raised by PSH, POP and the
  arithmetic instructions in states whose SP is outside its range. Safe: the model stops. -/
  | stackIndexOutOfRange
  /-- A fetch of a cell below N that the host never loaded, against its duty of R57 and R177. Raised by the fetch. Safe: the
  model stops. -/
  | streamCellNotLoaded
  deriving DecidableEq, Repr

/-- Why the model gives a step no meaning. -/
inductive Refusal where
  /-- An instruction without a meaning; raised by an arm of `exec` alone. Safe. No arm raises it. -/
  | notModelled (mnemonic : String)
  /-- Under `OVF_BAND_POLICY = REFUSE`, operands in a band of R128. Raised by SUB and MUL. Safe: the spec gives no meaning. -/
  | overflowBand (op : ArithOp)
  /-- `STREAM_LEN > IMEM_DEPTH`: the host must not start the block so (R33, R86, 93_implementation_defined.md). Raised by
  `step`. Safe: the spec gives no meaning. -/
  | streamLenOutOfRange
  deriving DecidableEq, Repr

/-- The state right after reset (R170), of the reference instance, with no program loaded and N = 0 (DESIGN CHOICE, log
entry 7). A to F hold the reference RTL's 0 (DESIGN CHOICE, log entry 5); the stack RAM holds no value (R175, log entry 6). -/
def State.reset : State :=
  { cfg := Config.reference
    regs := { a := 0, b := 0, c := 0, d := 0, e := 0, f := 0, ip := 0, sp := -1 }
    stk := []
    running := true
    haltCause := .normal
    streamLen := 0
    trace := []
    imem := [] }

end Sys2Proof.Machine
end

