-- ==== Sys2Proof/Machine/Flags.lean ====
section
/-!
DEFINITION. The numeric hazards of the arithmetic instructions (41_arithmetic.md R111 to R117), exact division (R123) and the
reading bands of R128. The machine has no condition codes (10_state.md R31): a hazard halts and sets no flag. Every test is over
exact integers (00_scope.md R9), at any cell width `w`.
-/

namespace Sys2Proof.Machine

/-- ADD's hazard test (R111). -/
def addOverflows (w : Nat) (b a : Int) : Bool :=
  decide ((b > 0 ∧ a > cellMax w - b) ∨ (b < 0 ∧ a < cellMin w - b))

/-- SUB's hazard test (R113), which replaces the source's formula (90_conflicts.md C2). -/
def subOverflows (w : Nat) (b a : Int) : Bool :=
  decide ((a < 0 ∧ b > cellMax w + a) ∨ (a > 0 ∧ b < cellMin w + a))

/-- `b //t a`: division rounding toward zero (R123); used with `a ≠ 0` only. -/
def divTrunc (b a : Int) : Int :=
  b.sign * a.sign * ((b.natAbs / a.natAbs : Nat) : Int)

/-- MUL's hazard test, one case for each combination of signs (R115). -/
def mulOverflows (w : Nat) (b a : Int) : Bool :=
  decide ((b > 0 ∧ a > 0 ∧ b > divTrunc (cellMax w) a) ∨
    (b > 0 ∧ a < 0 ∧ a < divTrunc (cellMin w) b) ∨
    (b < 0 ∧ a > 0 ∧ b < divTrunc (cellMin w) a) ∨
    (b < 0 ∧ a < 0 ∧ b < divTrunc (cellMax w) a))

/-- The hazard check of each binary operation: the cause it raises, if any (R111, R113, R115, R117), DivisionByZero before
ArithmeticOverflow (R127). -/
def ArithOp.hazard (w : Nat) (b a : Int) : ArithOp → Option HaltCause
  | .add => if addOverflows w b a then some .arithmeticOverflow else none
  | .sub => if subOverflows w b a then some .arithmeticOverflow else none
  | .mul => if mulOverflows w b a then some .arithmeticOverflow else none
  | .div =>
    if a = 0 then some .divisionByZero
    else if b = cellMin w ∧ a = -1 then some .arithmeticOverflow
    else none

/-- The exact result `b OP a` (R110, R122). -/
def ArithOp.result (b a : Int) : ArithOp → Int
  | .add => b + a
  | .sub => b - a
  | .mul => b * a
  | .div => divTrunc b a

/-- The operands on which two readings of the source differ (R128): a REFUSE model gives them no meaning. -/
def ArithOp.inBand (w : Nat) (b a : Int) : ArithOp → Bool
  | .add => false
  | .sub => decide (b - a = cellMin w ∨ b - a = cellMax w + 1)
  | .mul => decide (b * a = cellMin w)
  | .div => false

end Sys2Proof.Machine
end

