-- ==== Sys2Proof/Machine/Ops.lean ====
section
/-!
DEFINITION. The named operations over memory, registers, the stack, the trace and the run state: the primitives of
00_scope.md R10, the stack primitives of 40_stack.md R100 and R101, the halts of 60_exceptions.md R146 and 42_system.md R133,
and reset, the only way out of Halted (60_exceptions.md R148).
-/

namespace Sys2Proof.Machine

/-! ### Cells by index -/

/-- The canonical form of a memory: strictly rising indices. -/
abbrev Memory.wf (m : Memory) : Prop := m.Pairwise (fun x y => x.1 < y.1)

/-- The cell at index `i`, or no value. -/
def Memory.read (m : Memory) (i : Nat) : Option Int :=
  match m with
  | [] => none
  | (j, w) :: rest => if i = j then some w else Memory.read rest i

/-- Write the cell at index `i`, keeping the canonical form. -/
def Memory.write (m : Memory) (i : Nat) (v : Int) : Memory :=
  match m with
  | [] => [(i, v)]
  | (j, w) :: rest =>
    if i < j then (i, v) :: (j, w) :: rest
    else if i = j then (i, v) :: rest
    else (j, w) :: Memory.write rest i v

/-- Write consecutive cells from index `i` on. -/
def Memory.writeAll (m : Memory) (i : Nat) (vs : List Int) : Memory :=
  match vs with
  | [] => m
  | v :: rest => Memory.writeAll (Memory.write m i v) (i + 1) rest

/-! ### The register file (R20, R21) -/

/-- The index of a register (R21). -/
def Reg.index : Reg → Nat
  | .a => 0
  | .b => 1
  | .c => 2
  | .d => 3
  | .e => 4
  | .f => 5
  | .ip => 6
  | .sp => 7

/-- `reg[r]` (R10). -/
def RegFile.get (rf : RegFile) : Reg → Int
  | .a => rf.a
  | .b => rf.b
  | .c => rf.c
  | .d => rf.d
  | .e => rf.e
  | .f => rf.f
  | .ip => rf.ip
  | .sp => rf.sp

/-- `reg[r] <- v` (R10). -/
def RegFile.set (rf : RegFile) (r : Reg) (v : Int) : RegFile :=
  match r with
  | .a => { rf with a := v }
  | .b => { rf with b := v }
  | .c => { rf with c := v }
  | .d => { rf with d := v }
  | .e => { rf with e := v }
  | .f => { rf with f := v }
  | .ip => { rf with ip := v }
  | .sp => { rf with sp := v }

/-- `ip` (R10). -/
def State.ip (s : State) : Int := s.regs.get .ip

/-- `sp` (R10): -1 is the empty stack (R25). -/
def State.sp (s : State) : Int := s.regs.get .sp

/-- `N`, the unsigned value of STREAM_LEN (R24, R33). -/
def State.n (s : State) : Int := (s.streamLen : Int)

/-- `reg[r] <- v` in the state. -/
def State.setReg (s : State) (r : Reg) (v : Int) : State := { s with regs := s.regs.set r v }

/-- The IP update of R73: `ip <- ip + k`. -/
def State.advanceIp (s : State) (k : Nat) : State :=
  s.setReg .ip (s.regs.get .ip + k)

/-- `sp <- sp + 1` (R100). -/
def State.raiseSp (s : State) : State := s.setReg .sp (s.regs.get .sp + 1)

/-- `sp <- sp - 1` (R101, R110). -/
def State.lowerSp (s : State) : State := s.setReg .sp (s.regs.get .sp - 1)

/-- The state with the given stack RAM. -/
def State.setStk (s : State) (m : Memory) : State := { s with stk := m }

/-! ### Records and halts -/

/-- `emit`: append one record to the output trace (R10, R34). -/
def State.emit (s : State) (r : OutRecord) : State := { s with trace := s.trace ++ [r] }

/-- The 3-bit code of a halt cause (R141). -/
def HaltCause.code : HaltCause → BitVec 3
  | .normal => 0
  | .stackOverflow => 1
  | .stackUnderflow => 2
  | .unknownOpcode => 3
  | .unimplementedOpcode => 4
  | .arithmeticOverflow => 5
  | .divisionByZero => 6
  | .missingHalt => 7

/-- `raise Halt(cause)`, the whole of exception entry (R10, R146, R147): RUNNING and HALT_CAUSE, and nothing else. -/
def State.raiseHalt (s : State) (c : HaltCause) : State := { s with running := false, haltCause := c }

/-- `halt_normal()` (R133). -/
def State.haltNormal (s : State) : State := { s with running := false, haltCause := .normal }

/-- Reset (R170, R171, R179), the only way out of Halted (R148) and the only return there is: every element of R170's table
takes its reset value and STREAM_LEN captures what the host presents. The parameters and the instruction memory, which is
outside the block, stay. The stack RAM's contents are then unspecified: it holds no value (R175, log entry 6). The port carries `CELL_W` bits (R53). -/
def State.applyReset (s : State) (streamLen : Nat) : State :=
  { State.reset with cfg := s.cfg, imem := s.imem, streamLen := streamLen % 2 ^ s.cfg.cellW }

/-! ### How an instruction ends -/

/-- Why an instruction does not complete: a halt of the machine, or a stop of the model. -/
inductive Stop where
  | halt (c : HaltCause)
  | fault (r : Fault)
  | refuse (r : Refusal)
  deriving DecidableEq, Repr

/-- The end of an instruction begun in `s`: completed in `t`, or halted, with every other part of `s` as it was because
checks precede mutation (R126, R146), or stopped. -/
def conclude (s : State) : Except Stop State → Host.Outcome State Fault Refusal
  | .ok t => .next t
  | .error (.halt c) => .next (s.raiseHalt c)
  | .error (.fault r) => .fault r
  | .error (.refuse r) => .refused r

/-! ### The operand stack (R26, R42) -/

/-- `stk[i]` (R10), defined for `0 ≤ i < STACK_CAPACITY`. -/
def State.readStack (s : State) (i : Int) : Except Stop Int :=
  if 0 ≤ i ∧ i < s.cfg.stackCapacity then
    match s.stk.read i.toNat with
    | some v => .ok v
    | none => .error (.fault .stackEntryUnwritten)
  else .error (.fault .stackIndexOutOfRange)

/-- `stk[i] <- v` (R10), defined for `0 ≤ i < STACK_CAPACITY`. -/
def State.writeStack (s : State) (i : Int) (v : Int) : Except Stop State :=
  if 0 ≤ i ∧ i < s.cfg.stackCapacity then .ok (s.setStk (s.stk.write i.toNat v))
  else .error (.fault .stackIndexOutOfRange)

/-- The push primitive (R100). -/
def State.push (s : State) (v : Int) : Except Stop State :=
  if s.sp = s.cfg.stackCapacity - 1 then .error (.halt .stackOverflow)
  else s.raiseSp.writeStack (s.sp + 1) v

/-- The pop primitive (R101): the entry is not cleared (R28). -/
def State.pop (s : State) : Except Stop (Int × State) :=
  if s.sp = -1 then .error (.halt .stackUnderflow)
  else
    match s.readStack s.sp with
    | .ok v => .ok (v, s.lowerSp)
    | .error e => .error e

end Sys2Proof.Machine
end

