-- ==== Sys2Proof/Machine/Operands.lean ====
section
/-!
DEFINITION. The operand forms (30_encoding.md R65): PSH's immediate is a field of the decoded instruction, whose cell must lie
inside the stream (40_stack.md R102); every other operand is implicit, the top one or two stack entries (41_arithmetic.md R122).
-/

namespace Sys2Proof.Machine

/-- PSH's operand cell, at `ip + 1`, must lie inside the stream (R102). -/
def State.requireOperandCell (s : State) : Except Stop Unit :=
  if s.ip + 1 ≥ s.n then .error (.halt .missingHalt) else .ok ()

/-- The two implicit operands of a binary operation, `(a, b)` with `a = stk[sp]` and `b = stk[sp-1]`, after the depth check
and before any pop is committed (R110, R122). -/
def State.binaryOperands (s : State) : Except Stop (Int × Int) :=
  if s.sp < 1 then .error (.halt .stackUnderflow)
  else
    match s.readStack s.sp with
    | .error e => .error e
    | .ok a =>
      match s.readStack (s.sp - 1) with
      | .error e => .error e
      | .ok b => .ok (a, b)

end Sys2Proof.Machine
end

