-- ==== Sys2Proof/Machine/Arithmetic.lean ====
section
/-!
DEFINITION. The arithmetic instructions (41_arithmetic.md): ADD, SUB, MUL and DIV over the one frame of R110.
-/

namespace Sys2Proof.Machine

/-- The hazard check of an operation on its operands: under `OVF_BAND_POLICY = REFUSE` the bands of R128 are refused, on every
other operand the instruction's own test decides (log entry 10). -/
def checkHazard (cfg : Config) (op : ArithOp) (b a : Int) : Except Stop Unit :=
  if cfg.ovfBands = .refuseBands ∧ op.inBand cfg.cellW b a = true then .error (.refuse (.overflowBand op))
  else
    match op.hazard cfg.cellW b a with
    | some c => .error (.halt c)
    | none => .ok ()

/-- The commit of R110: two pops and one push, so `sp <- sp - 1` and `stk[sp] <- r`, the record `(OP, b, a, r)`, and
`ip <- ip + 1`. The result replaces `b`; the entry that held `a` is dead and keeps it (R125). -/
def commitBinary (op : ArithOp) (b a r : Int) (s : State) : Except Stop State :=
  match s.lowerSp.writeStack (s.sp - 1) r with
  | .error e => .error e
  | .ok t => .ok ((t.emit (.computed op b a r)).advanceIp 1)

/-- The binary-operation frame (R110): the depth check, the operands, the hazard check, the exact result, the commit. -/
def binaryEffect (op : ArithOp) (s : State) : Except Stop State :=
  match s.binaryOperands with
  | .error e => .error e
  | .ok (a, b) =>
    match checkHazard s.cfg op b a with
    | .error e => .error e
    | .ok _ => commitBinary op b a (op.result b a) s

/-- ADD (R111). -/
def execAdd (s : State) : Host.Outcome State Fault Refusal :=
  conclude s (binaryEffect .add s)

/-- SUB (R113). -/
def execSub (s : State) : Host.Outcome State Fault Refusal :=
  conclude s (binaryEffect .sub s)

/-- MUL (R115). -/
def execMul (s : State) : Host.Outcome State Fault Refusal :=
  conclude s (binaryEffect .mul s)

/-- DIV (R117). -/
def execDiv (s : State) : Host.Outcome State Fault Refusal :=
  conclude s (binaryEffect .div s)

end Sys2Proof.Machine
end

