-- ==== Sys2Proof/Machine/Stack.lean ====
section
/-!
DEFINITION. The stack instructions (40_stack.md): PSH and POP.
-/

namespace Sys2Proof.Machine

/-- PSH (R102): the operand cell's bounds check, then the push, then `ip <- ip + 2`. -/
def pshEffect (imm : Int) (s : State) : Except Stop State :=
  match s.requireOperandCell with
  | .error e => .error e
  | .ok _ =>
    match s.push imm with
    | .error e => .error e
    | .ok t => .ok (t.advanceIp 2)

/-- PSH (R102). -/
def execPsh (imm : Int) (s : State) : Host.Outcome State Fault Refusal :=
  conclude s (pshEffect imm s)

/-- POP (R103): the pop, the record, then `ip <- ip + 1`. -/
def popEffect (s : State) : Except Stop State :=
  match s.pop with
  | .error e => .error e
  | .ok (v, t) => .ok ((t.emit (.popped v)).advanceIp 1)

/-- POP (R103). -/
def execPop (s : State) : Host.Outcome State Fault Refusal :=
  conclude s (popEffect s)

end Sys2Proof.Machine
end

