-- ==== Sys2Proof/Machine/System.lean ====
section
/-!
DEFINITION. The system and control instructions (42_system.md): SET and HLT. Both end the run (R136).
-/

namespace Sys2Proof.Machine

/-- SET (R130): always `raise Halt(UnimplementedOpcode)`. -/
def execSet (s : State) : Host.Outcome State Fault Refusal :=
  .next (s.raiseHalt .unimplementedOpcode)

/-- HLT (R132): `halt_normal()`. -/
def execHlt (s : State) : Host.Outcome State Fault Refusal :=
  .next s.haltNormal

end Sys2Proof.Machine
end

