-- ==== Sys2Proof/Syntax.lean ====
section
/-!
DEFINITION. The instructions of the CVM-ISA (00_scope.md R2), one constructor per row of spec/opcode_table.json. Only PSH
has an explicit operand (30_encoding.md R65).
-/

namespace Sys2Proof

/-- An instruction as the decoder gives it. -/
inductive Instr where
  /-- PSH: push the immediate, the whole cell after the opcode cell (R65, R102). -/
  | psh (imm : Int)
  /-- POP: pop and emit (R103). -/
  | pop
  /-- ADD (R111). -/
  | add
  /-- SUB (R113). -/
  | sub
  /-- MUL (R115). -/
  | mul
  /-- DIV (R117). -/
  | div
  /-- SET: reserved, halts (R130). -/
  | set
  /-- HLT: normal halt (R132). -/
  | hlt
  deriving DecidableEq, Repr

/-- The opcode of an instruction. -/
def Instr.opcode : Instr → Opcode
  | .psh _ => .psh
  | .pop => .pop
  | .add => .add
  | .sub => .sub
  | .mul => .mul
  | .div => .div
  | .set => .set
  | .hlt => .hlt

/-- The length of an instruction in cells (R61, R62, R67). -/
def Opcode.length : Opcode → Nat
  | .psh => 2
  | .pop | .add | .sub | .mul | .div | .set | .hlt => 1

end Sys2Proof
end

