-- ==== Sys2Proof/Machine/Dispatch.lean ====
section
/-!
DEFINITION. The dispatch of 30_encoding.md R72: one arm per instruction, each one direct call of its meaning.
-/

namespace Sys2Proof.Machine

/-- Execute one instruction at IP (R72). -/
def exec (i : Instr) (s : State) : Host.Outcome State Fault Refusal :=
  match i with
  | .psh imm => Sys2Proof.Machine.execPsh imm s
  | .pop => Sys2Proof.Machine.execPop s
  | .add => Sys2Proof.Machine.execAdd s
  | .sub => Sys2Proof.Machine.execSub s
  | .mul => Sys2Proof.Machine.execMul s
  | .div => Sys2Proof.Machine.execDiv s
  | .set => Sys2Proof.Machine.execSet s
  | .hlt => Sys2Proof.Machine.execHlt s

end Sys2Proof.Machine
end

