-- ==== Sys2Proof/WellFormed.lean ====
section
/-!
DEFINITION. Which terms are well formed: the legal parameter values of 00_scope.md R6, and the instructions whose
immediate is a cell of the given width (30_encoding.md R65).
-/

namespace Sys2Proof

/-- `OPCODE_MAP` is legal when it is injective, the sentinel's value included, into `[0, MAX]` (R6). -/
def OpcodeMap.wellFormed (m : OpcodeMap) (w : Nat) : Bool :=
  decide m.values.Nodup && m.values.all (fun v => decide (0 ≤ v ∧ v ≤ cellMax w))

/-- The legal values of the parameters (R6). The upper bound of `STACK_CAPACITY` is DEDUCED: SP is a signed cell that
ranges over `[-1, STACK_CAPACITY-1]` (R20, R25); log entry 11. -/
def Config.wellFormed (c : Config) : Bool :=
  decide (8 ≤ c.cellW) &&
    decide (1 ≤ c.stackCapacity) && decide ((c.stackCapacity : Int) ≤ cellMax c.cellW + 1) &&
    decide (1 ≤ c.imemDepth) && decide ((c.imemDepth : Int) ≤ cellMax c.cellW) && c.opcodes.wellFormed c.cellW

/-- PSH's immediate is any value in `[MIN, MAX]` (R65); no other instruction has an operand. -/
def Instr.wellFormed (w : Nat) : Instr → Bool
  | .psh imm => decide (Representable w imm)
  | .pop | .add | .sub | .mul | .div | .set | .hlt => true

end Sys2Proof
end

