-- ==== Sys2Proof/Decode.lean ====
section
/-!
DEFINITION. The decoder and the encoder of the instruction stream (30_encoding.md R60 to R69), the pre-decoder of R75, the
bits of an opcode-table row as cells, and the host's byte serialisation of a cell (20_memory.md R45).
-/

namespace Sys2Proof

/-- The opcode an opcode-position cell selects: the whole cell is compared, in the order of R72's arms; `none` is a cell
that is no opcode, the UNKNOWN sentinel among them (R64, R68). -/
def decodeOpcode (m : OpcodeMap) (v : Int) : Option Opcode :=
  if v = m.hlt then some .hlt
  else if v = m.psh then some .psh
  else if v = m.pop then some .pop
  else if v = m.add then some .add
  else if v = m.sub then some .sub
  else if v = m.mul then some .mul
  else if v = m.div then some .div
  else if v = m.set then some .set
  else none

/-- What the decoder reads at the front of a list of cells. -/
inductive Decoded where
  /-- An instruction, and the cells after it. -/
  | instr (i : Instr) (rest : List Int)
  /-- There is no cell: the stream has ended (R70). -/
  | streamEnd
  /-- The opcode cell is no opcode (R68). -/
  | unknownOpcode (v : Int)
  /-- A PSH opcode cell with no operand cell after it (R102). -/
  | operandMissing
  deriving DecidableEq, Repr

/-- Decode the instruction at the front of a list of cells (R61, R62, R66, R68). -/
def decode (m : OpcodeMap) : List Int → Decoded
  | [] => .streamEnd
  | v :: rest =>
    match decodeOpcode m v with
    | none => .unknownOpcode v
    | some .psh =>
      match rest with
      | [] => .operandMissing
      | imm :: rest' => .instr (.psh imm) rest'
    | some .pop => .instr .pop rest
    | some .add => .instr .add rest
    | some .sub => .instr .sub rest
    | some .mul => .instr .mul rest
    | some .div => .instr .div rest
    | some .set => .instr .set rest
    | some .hlt => .instr .hlt rest

/-- The cells of an instruction (R61, R62). -/
def encode (m : OpcodeMap) : Instr → List Int
  | .psh imm => [m.psh, imm]
  | .pop => [m.pop]
  | .add => [m.add]
  | .sub => [m.sub]
  | .mul => [m.mul]
  | .div => [m.div]
  | .set => [m.set]
  | .hlt => [m.hlt]

/-- The words of an instruction: the bits of its cells (R8, R61, R62). -/
def encodeWords (w : Nat) (m : OpcodeMap) (i : Instr) : List (BitVec w) :=
  (encode m i).map (cellBits w)

/-- Decode the instruction at the front of a list of words (R8, R64). -/
def decodeWords {w : Nat} (m : OpcodeMap) (words : List (BitVec w)) : Decoded :=
  decode m (words.map cellOfBits)

/-- The cells of a sequence of instructions. -/
def encodeAll (m : OpcodeMap) (is : List Instr) : List Int :=
  is.flatMap (encode m)

/-- An entry of the pre-decoded stream (R75): the index of an opcode cell and what stands there. -/
inductive Predecoded where
  | instr (idx : Nat) (i : Instr)
  | pshTruncated (idx : Nat)
  | unknown (idx : Nat) (v : Int)
  deriving DecidableEq, Repr

/-- The index of an entry's opcode cell. -/
def Predecoded.index : Predecoded → Nat
  | .instr idx _ => idx
  | .pshTruncated idx => idx
  | .unknown idx _ => idx

/-- The pre-decoding walk of R75 over the cells from index `idx` on. -/
def predecode (m : OpcodeMap) (idx : Nat) : List Int → List Predecoded
  | [] => []
  | v :: rest =>
    match decodeOpcode m v with
    | none => [.unknown idx v]
    | some .psh =>
      match rest with
      | [] => [.pshTruncated idx]
      | imm :: rest' => .instr idx (.psh imm) :: predecode m (idx + 2) rest'
    | some .pop => .instr idx .pop :: predecode m (idx + 1) rest
    | some .add => .instr idx .add :: predecode m (idx + 1) rest
    | some .sub => .instr idx .sub :: predecode m (idx + 1) rest
    | some .mul => .instr idx .mul :: predecode m (idx + 1) rest
    | some .div => .instr idx .div :: predecode m (idx + 1) rest
    | some .set => .instr idx .set :: predecode m (idx + 1) rest
    | some .hlt => .instr idx .hlt :: predecode m (idx + 1) rest

/-- The two words of an opcode-table row's bits at the cell width `cellW`: the first is bits `cellW-1` to 0, the second the
`cellW` bits above; the bits from `nbits` on are zero. -/
def tableWords (cellW nbits w : Nat) : List (BitVec cellW) :=
  let bits := w % 2 ^ nbits
  [BitVec.ofNat cellW bits, BitVec.ofNat cellW (bits / 2 ^ cellW)]

/-- The instruction the decoder reads from an opcode-table row's bits, under the default map and width. -/
def decodeTableWord (nbits w : Nat) : Option Instr :=
  match decodeWords OpcodeMap.standard (tableWords 32 nbits w) with
  | .instr i _ => some i
  | .streamEnd => none
  | .unknownOpcode _ => none
  | .operandMissing => none

/-- The number of bytes a host serialises a cell to. -/
def bytesPerCell (w : Nat) : Nat := (w + 7) / 8

/-- The bytes of a cell as a host serialises it: byte `k` is bits `8k+7:8k`, little-endian (R45); bits above the cell's are 0
(log entry 22). -/
def cellBytes (w : Nat) (v : Int) : List (BitVec 8) :=
  (List.range (bytesPerCell w)).map (fun k => (cellBits w v).extractLsb' (8 * k) 8)

/-- The cell a host's loader reads back from bytes, the least significant first (R45). DESIGN CHOICE: bytes that are missing
read as 0 and bits above the cell's are ignored (log entry 24). -/
def cellOfBytes (w : Nat) (bs : List (BitVec 8)) : Int :=
  cellOfBits (BitVec.ofNat w (bs.foldr (fun b acc => b.toNat + 256 * acc) 0))

/-- The first `n` cells a host's loader reads from the bytes of a stream (R45). DESIGN CHOICE: where the bytes end before `n`
cells the missing bytes read as 0, and bytes after `n` cells are ignored (log entry 24). -/
def cellsOfBytes (w : Nat) : Nat → List (BitVec 8) → List Int
  | 0, _ => []
  | n + 1, bs => cellOfBytes w (bs.take (bytesPerCell w)) :: cellsOfBytes w n (bs.drop (bytesPerCell w))

end Sys2Proof
end

