-- ==== Sys2Proof/Machine/Fetch.lean ====
section
/-!
DEFINITION. Fetch and decode at IP (30_encoding.md R70 to R72), through reads of the instruction stream below N alone
(20_memory.md R40, R54).
-/

namespace Sys2Proof.Machine

/-- Out of range for the cycle's bounds check (R70): `¬(0 ≤ ip < N)`. -/
def State.pastEnd (s : State) : Bool := decide (¬(0 ≤ s.ip ∧ s.ip < s.n))

/-- `MemRead(i, 1)` (R10), called with `0 ≤ i < N` only; a cell the host never loaded holds no value (log entry 4). -/
def State.memRead (s : State) (i : Int) : Except Fault Int :=
  match s.imem.read i.toNat with
  | some v => .ok v
  | none => .error .streamCellNotLoaded

/-- The cells the decoder is given: none past the end (R70), the opcode cell, and PSH's operand cell where it lies inside the
stream (R102). -/
def State.fetchCells (s : State) : Except Fault (List Int) :=
  if s.pastEnd then .ok []
  else
    match s.memRead s.ip with
    | .error e => .error e
    | .ok op =>
      if decodeOpcode s.cfg.opcodes op = some .psh ∧ s.ip + 1 < s.n then
        match s.memRead (s.ip + 1) with
        | .error e => .error e
        | .ok imm => .ok [op, imm]
      else .ok [op]

/-- What a cycle finds at IP. -/
inductive Fetched where
  | instr (i : Instr)
  | halt (c : HaltCause)
  | fault (r : Fault)
  deriving DecidableEq, Repr

/-- Steps 1 to 3 of the cycle (R70 to R72): an instruction to execute, or MissingHalt, UnknownOpcode, or MissingHalt for a
PSH whose operand cell lies outside the stream (R75, R102, log entry 13). -/
def State.fetch (s : State) : Fetched :=
  match s.fetchCells with
  | .error e => .fault e
  | .ok cells =>
    match decode s.cfg.opcodes cells with
    | .instr i _ => .instr i
    | .streamEnd => .halt .missingHalt
    | .unknownOpcode _ => .halt .unknownOpcode
    | .operandMissing => .halt .missingHalt

/-- The indices the step at `s` requests from the instruction memory, in order (R54); none when halted (R149). -/
def State.imemRequests (s : State) : List Int :=
  if s.running = false ∨ s.pastEnd = true then []
  else
    match s.memRead s.ip with
    | .error _ => [s.ip]
    | .ok op =>
      if decodeOpcode s.cfg.opcodes op = some .psh ∧ s.ip + 1 < s.n then [s.ip, s.ip + 1] else [s.ip]

end Sys2Proof.Machine
end

