-- ==== Sys2Proof/Machine/Step.lean ====
section
/-!
DEFINITION. One step (30_encoding.md R70 to R74): with RUNNING = 1 one whole instruction or a halt; with RUNNING = 0 the
state is held (60_exceptions.md R149, log entry 8).
-/

namespace Sys2Proof.Machine

/-- One step of the machine. A stream longer than the instruction memory is refused: the block has no launch with it
(R33, log entry 9). -/
def step (s : State) : Host.Outcome State Fault Refusal :=
  if s.running then
    if s.n ≤ s.cfg.imemDepth then
      match s.fetch with
      | .instr i => exec i s
      | .halt c => .next (s.raiseHalt c)
      | .fault r => .fault r
    else .refused .streamLenOutOfRange
  else .next s

/-- `s` with an opcode-table row's bits loaded where `step` fetches next, standing for the host's load of a program
(R177, log entry 7): the two cells at IP, a stream that reaches them, and the engine Running. -/
def State.withFetchWord (s : State) (nbits w : Nat) : State :=
  let i := s.ip.toNat
  { s with
    running := true
    streamLen := max s.streamLen (i + 2)
    imem := s.imem.writeAll i ((tableWords s.cfg.cellW nbits w).map cellOfBits) }

end Sys2Proof.Machine
end

