-- ==== Sys2Proof/Machine/Assembler.lean ====
section
/-!
DEFINITION. The assembler, the host-side toolchain that produces the instruction stream (30_encoding.md R80 to R89). A source
text is a list of characters and a token is the list of its characters (log entry 16).
-/

namespace Sys2Proof.Machine

/-- A token: a maximal run of non-whitespace characters (R81). -/
abbrev Token := List Char

/-- The load-time failures (R87, R88, R144; 90_conflicts.md C3 and C4). -/
inductive AsmError where
  /-- The source cannot be read (R87). -/
  | sourceUnreadable
  /-- PSH without an operand that is an integer literal in range (R83, R84). -/
  | malformedOperand
  /-- Either assembler failure under `REJECT` (R85). -/
  | malformedProgram
  deriving DecidableEq, Repr

/-- The whitespace set: space, tab, line feed, vertical tab, form feed, carriage return (R81, D24). -/
def isSpace (c : Char) : Bool :=
  c.toNat = 32 || (9 ≤ c.toNat && c.toNat ≤ 13)

/-- The lines of a newline-delimited text (R80). -/
def splitLines : List Char → List (List Char)
  | [] => [[]]
  | c :: cs =>
    if c = '\n' then [] :: splitLines cs
    else
      match splitLines cs with
      | [] => [[c]]
      | l :: ls => (c :: l) :: ls

/-- A line without its comment: `#` ends the line's tokens wherever it stands (R80). -/
def stripComment (line : List Char) : List Char := line.takeWhile (fun c => decide (c ≠ '#'))

/-- The tokens of a line, after the characters `cur` of a token already begun (R81). -/
def lineTokens (cur : Token) : List Char → List Token
  | [] => if cur = [] then [] else [cur]
  | c :: cs =>
    if isSpace c then
      if cur = [] then lineTokens [] cs else cur :: lineTokens [] cs
    else lineTokens (cur ++ [c]) cs

/-- The token sequence of a program: the tokens of its lines in line order (R81, D22). -/
def tokenize (text : List Char) : List Token :=
  (splitLines text).flatMap (fun line => lineTokens [] (stripComment line))

/-- The mnemonic of an opcode (R82). -/
def mnemonic : Opcode → Token
  | .psh => ['P', 'S', 'H']
  | .pop => ['P', 'O', 'P']
  | .add => ['A', 'D', 'D']
  | .sub => ['S', 'U', 'B']
  | .mul => ['M', 'U', 'L']
  | .div => ['D', 'I', 'V']
  | .set => ['S', 'E', 'T']
  | .hlt => ['H', 'L', 'T']

/-- Mnemonic resolution, exact and case-sensitive; `none` is UNKNOWN (R82). -/
def resolve (tok : Token) : Option Opcode :=
  [Opcode.psh, .pop, .add, .sub, .mul, .div, .set, .hlt].find? (fun op => decide (mnemonic op = tok))

/-- The mnemonic-to-value mapping: a total function, whose value on any other string is the UNKNOWN sentinel (R82). -/
def mnemonicValue (m : OpcodeMap) (tok : Token) : Int :=
  match resolve tok with
  | some op => m.value op
  | none => m.unknown

/-- The value of a decimal digit. -/
def digitValue (c : Char) : Option Nat :=
  if 48 ≤ c.toNat ∧ c.toNat ≤ 57 then some (c.toNat - 48) else none

/-- The value of a run of decimal digits after a prefix of value `acc`. -/
def digitsValue (acc : Nat) : List Char → Option Nat
  | [] => some acc
  | c :: cs =>
    match digitValue c with
    | some d => digitsValue (10 * acc + d) cs
    | none => none

/-- One or more decimal digits (R83). -/
def unsignedLiteral : List Char → Option Nat
  | [] => none
  | c :: cs => digitsValue 0 (c :: cs)

/-- The integer a token of the form `[+-]?[0-9]+` denotes (R83). -/
def literalInt : Token → Option Int
  | [] => none
  | c :: cs =>
    if c = '-' then (unsignedLiteral cs).map (fun n : Nat => -(n : Int))
    else if c = '+' then (unsignedLiteral cs).map (fun n : Nat => (n : Int))
    else (unsignedLiteral (c :: cs)).map (fun n : Nat => (n : Int))

/-- An integer literal whose value lies in `[MIN, MAX]`, as a cell (R83). -/
def literal (w : Nat) (tok : Token) : Option Int :=
  match literalInt tok with
  | some x => if Representable w x then some x else none
  | none => none

/-- The failure of a PSH whose operand is missing or malformed: MalformedOperand, and under `REJECT`, where both failures are
reported as one, MalformedProgram (R85, 90_conflicts.md C3, log entry 14). -/
def operandError : UnknownTokenPolicy → AsmError
  | .skip => .malformedOperand
  | .reject => .malformedProgram

/-- Put cells before an assembled stream. -/
def prependCells (cells : List Int) : Except AsmError (List Int) → Except AsmError (List Int)
  | .ok out => .ok (cells ++ out)
  | .error e => .error e

/-- The assembly loop (R84, R85). -/
def assembleTokens (cfg : Config) : List Token → Except AsmError (List Int)
  | [] => .ok []
  | tok :: toks =>
    match resolve tok with
    | some .psh =>
      match toks with
      | [] => .error (operandError cfg.unknownTokens)
      | lit :: toks' =>
        match literal cfg.cellW lit with
        | some v => prependCells [cfg.opcodes.psh, v] (assembleTokens cfg toks')
        | none => .error (operandError cfg.unknownTokens)
    | some op => prependCells [cfg.opcodes.value op] (assembleTokens cfg toks)
    | none =>
      match cfg.unknownTokens with
      | .skip => assembleTokens cfg toks
      | .reject => .error .malformedProgram

/-- The assembler: the stream of a source text, where `none` is a source that cannot be read (R84, R86, R87). The length `N`
is the stream's. -/
def assemble (cfg : Config) : Option (List Char) → Except AsmError (List Int)
  | none => .error .sourceUnreadable
  | some text => assembleTokens cfg (tokenize text)

end Sys2Proof.Machine
end

