-- ==== Sys2Proof/Machine/Boot.lean ====
section
/-!
DEFINITION. The host's boot sequence (70_reset_and_hazards.md R177): assemble, check the length, load the instruction memory,
present N during reset, release reset. These are the host's moves, not steps of the engine (log entry 17).
-/

namespace Sys2Proof.Machine

/-- Why the host does not start the block. -/
inductive BootError where
  /-- Assembly failed (R88). -/
  | assembly (e : AsmError)
  /-- The stream does not fit the instruction memory (R86, R177). -/
  | streamTooLong
  deriving DecidableEq, Repr

/-- Load a stream's cells at indices `0 … N-1` (R177, step 4). -/
def State.loadCells (s : State) (cells : List Int) : State :=
  { s with imem := s.imem.writeAll 0 cells }

/-- Start the block on a stream: check its length, load it, and reset with `N` presented (R177, steps 3 to 6). -/
def State.start (s : State) (cells : List Int) : Except BootError State :=
  if cells.length ≤ s.cfg.imemDepth then
    .ok ((s.loadCells cells).applyReset cells.length)
  else .error .streamTooLong

/-- The whole boot sequence from a source text; on a failure the block is never released from reset with that program
(R88, R177). -/
def State.boot (s : State) (source : Option (List Char)) : Except BootError State :=
  match assemble s.cfg source with
  | .error e => .error (.assembly e)
  | .ok cells => s.start cells

end Sys2Proof.Machine
end

