-- ==== Sys2Proof/Machine/Ports.lean ====
section
/-!
DEFINITION. What the block shows on its ports (20_memory.md R53 to R56) and what a run's observer sees (R58), as functions of
the state. Clock edges are not modelled (00_scope.md R4, log entry 20).
-/

namespace Sys2Proof.Machine

/-- The operation's 3-bit record kind (R47). -/
def ArithOp.kind : ArithOp → BitVec 3
  | .add => 2
  | .sub => 3
  | .mul => 4
  | .div => 5

/-- One cycle of the output port with `out_valid = 1` (R53, R55). -/
structure OutBeat where
  kind : BitVec 3
  left : Int
  right : Int
  value : Int
  deriving DecidableEq, Repr

/-- The beat of a record: for a POP `out_left` and `out_right` are 0 (R55). -/
def OutRecord.beat : OutRecord → OutBeat
  | .popped v => { kind := 1, left := 0, right := 0, value := v }
  | .computed op b a r => { kind := op.kind, left := b, right := a, value := r }

/-- The beats of a run so far, in program order (R34, R55). -/
def State.beats (s : State) : List OutBeat := s.trace.map OutRecord.beat

/-- The status ports (R53, R56). -/
structure StatusPorts where
  running : BitVec 1
  haltCause : BitVec 3
  ipO : Int
  spO : Int
  deriving DecidableEq, Repr

/-- The status ports show the current state at all times (R56). -/
def State.statusPorts (s : State) : StatusPorts :=
  { running := BitVec.ofBool s.running
    haltCause := s.haltCause.code
    ipO := s.regs.get .ip
    spO := s.regs.get .sp }

/-- `dbg_stk_data` for the index `dbg_stk_addr`: the live entry when halted; otherwise unspecified, that is the value
`unspecified`, which nothing constrains (R53, R56, log entry 18). -/
def State.dbgStkData (unspecified : Int) (s : State) (addr : Int) : Int :=
  if s.running = false ∧ 0 ≤ addr ∧ addr ≤ s.sp then
    (s.stk.read addr.toNat).getD unspecified
  else unspecified

/-- The live stack entries, bottom to top (R26, R58): `none` for an entry that holds no value, which no reachable state has
(R29). -/
def State.liveStack (s : State) : List (Option Int) :=
  (List.range (s.sp + 1).toNat).map (fun i => s.stk.read i)

/-- The outcome of a halt: success only for the normal halt (R150). -/
def HaltCause.success : HaltCause → Bool
  | .normal => true
  | .stackOverflow => false
  | .stackUnderflow => false
  | .unknownOpcode => false
  | .unimplementedOpcode => false
  | .arithmeticOverflow => false
  | .divisionByZero => false
  | .missingHalt => false

/-- A run's observable result (R58). -/
structure Observation where
  trace : List OutRecord
  haltCause : HaltCause
  success : Bool
  ip : Int
  sp : Int
  stack : List (Option Int)
  deriving DecidableEq, Repr

/-- The result of a run, once it has ended, that is in a state with RUNNING = 0 (R58, R150). -/
def State.observe (s : State) : Option Observation :=
  if s.running then none
  else some
    { trace := s.trace, haltCause := s.haltCause, success := s.haltCause.success,
      ip := s.regs.get .ip, sp := s.regs.get .sp, stack := s.liveStack }

end Sys2Proof.Machine
end

