-- ==== Sys2Proof/Safety.lean ====
section
/-!
DEFINITION. What counts as a safe state and a safe run: the invariant of 10_state.md R24, R27 and R29 with the canonical form
of the two memories, the frames that claims are stated in, and the runs of the machine and of an instruction list.
-/

namespace Sys2Proof.Machine

/-- Every index a memory lists lies below `bound`. -/
abbrev Memory.Below (m : Memory) (bound : Nat) : Prop := ∀ e ∈ m, e.1 < bound

/-- The stream's cells `0 … n-1` are loaded (R177). -/
abbrev Memory.Loaded (m : Memory) (n : Nat) : Prop := ∀ i < n, (m.read i).isSome = true

/-- Every cell of a memory has `w` bits. -/
abbrev Memory.Fits (m : Memory) (w : Nat) : Prop := ∀ e ∈ m, Representable w e.2

/-- The registers' values, in the order of R21. -/
def RegFile.values (rf : RegFile) : List Int := [rf.a, rf.b, rf.c, rf.d, rf.e, rf.f, rf.ip, rf.sp]

/-- Every register has `w` bits (R20). -/
abbrev RegFile.Fits (rf : RegFile) (w : Nat) : Prop := ∀ v ∈ rf.values, Representable w v

/-- The values of a record that are cells (R47, R53). -/
def OutRecord.values : OutRecord → List Int
  | .popped v => [v]
  | .computed _ left right v => [left, right, v]

/-- Every value of every record has `w` bits (R53). -/
abbrev TraceFits (trace : List OutRecord) (w : Nat) : Prop := ∀ r ∈ trace, ∀ v ∈ r.values, Representable w v

/-- What the host holds outside the block before a start is in form: legal parameters, and an instruction memory in
canonical form, inside its bound, of cells (R6, R40). -/
structure State.HostInForm (s : State) : Prop where
  config : s.cfg.wellFormed = true
  imemWf : s.imem.wf
  imemBelow : s.imem.Below s.cfg.imemDepth
  imemFits : s.imem.Fits s.cfg.cellW

/-- The invariant of the machine: the parameters are legal (R6), `N ≤ IMEM_DEPTH` and the stream is loaded (R24, R177),
`0 ≤ ip ≤ N` (R24), `0 ≤ sp+1 ≤ capacity` (R27), every live stack entry has been written (R29), both memories are in
canonical form inside their bounds, every cell of the machine has `CELL_W` bits (R8, R9), and HALT_CAUSE is 0 while running
(R32, R176). -/
structure State.Inv (s : State) : Prop where
  config : s.cfg.wellFormed = true
  streamFits : s.n ≤ s.cfg.imemDepth
  streamLoaded : s.imem.Loaded s.streamLen
  imemWf : s.imem.wf
  imemBelow : s.imem.Below s.cfg.imemDepth
  ipNonneg : 0 ≤ s.ip
  ipLe : s.ip ≤ s.n
  spGe : -1 ≤ s.sp
  spLt : s.sp < s.cfg.stackCapacity
  stkWf : s.stk.wf
  stkBelow : s.stk.Below s.cfg.stackCapacity
  liveWritten : s.stk.Loaded (s.sp + 1).toNat
  regsFit : s.regs.Fits s.cfg.cellW
  stkFits : s.stk.Fits s.cfg.cellW
  imemFits : s.imem.Fits s.cfg.cellW
  traceFits : TraceFits s.trace s.cfg.cellW
  causeZero : s.running = true → s.haltCause = .normal

/-- What no instruction writes: the parameters, the instruction memory and STREAM_LEN (R33, R35, R41), and A to F (R22). -/
structure State.SameFixed (s t : State) : Prop where
  cfg : t.cfg = s.cfg
  imem : t.imem = s.imem
  streamLen : t.streamLen = s.streamLen
  a : t.regs.a = s.regs.a
  b : t.regs.b = s.regs.b
  c : t.regs.c = s.regs.c
  d : t.regs.d = s.regs.d
  e : t.regs.e = s.regs.e
  f : t.regs.f = s.regs.f

/-- What a halt leaves (R146): RUNNING and HALT_CAUSE as the halt sets them, every other piece of state as it was. -/
structure State.HaltsInto (s t : State) (c : HaltCause) : Prop where
  fixed : s.SameFixed t
  running : t.running = false
  haltCause : t.haltCause = c
  ip : t.regs.ip = s.regs.ip
  sp : t.regs.sp = s.regs.sp
  stk : t.stk = s.stk
  trace : t.trace = s.trace

/-- Every stack entry but the one at index `i` reads as before. -/
abbrev State.StackSameExcept (s t : State) (i : Int) : Prop :=
  ∀ j : Nat, (j : Int) ≠ i → t.stk.read j = s.stk.read j

/-- Every stack entry reads as before. -/
abbrev State.StackSame (s t : State) : Prop := ∀ j : Nat, t.stk.read j = s.stk.read j

/-- The premise every instruction rule starts from (R11 and the heads of 40, 41 and 42): legal parameters, a stream that fits,
RUNNING = 1 and the bounds check of R70 passed. -/
structure State.Ready (s : State) : Prop where
  config : s.cfg.wellFormed = true
  streamFits : s.n ≤ s.cfg.imemDepth
  running : s.running = true
  ipNonneg : 0 ≤ s.ip
  ipLt : s.ip < s.n

/-- What an instruction that completes leaves, but for the stack's entries: RUNNING and HALT_CAUSE as they were, IP and SP
moved by the given amounts, the given records appended, nothing else written (R73, R106, R34). -/
structure State.CompletesInto (s t : State) (dIp dSp : Int) (records : List OutRecord) : Prop where
  fixed : s.SameFixed t
  running : t.running = s.running
  haltCause : t.haltCause = s.haltCause
  ip : t.ip = s.ip + dIp
  sp : t.sp = s.sp + dSp
  trace : t.trace = s.trace ++ records

/-- A binary operation on `b` and `a` commits the exact integer `x`, which is a cell (R9, R110, R125): `x` replaces `b`, every
other entry stays, the dead one that held `a` among them, and one record is appended. -/
structure State.CommitsBinary (s t : State) (op : ArithOp) (b a : Int) (x : Int) : Prop where
  isCell : Representable s.cfg.cellW x
  result : t.stk.read (s.sp - 1).toNat = some x
  completes : s.CompletesInto t 1 (-1) [.computed op b a x]
  others : s.StackSameExcept t (s.sp - 1)

/-- The two operands of a binary operation are on the stack: the cells `a` on top, `b` below it (R122). -/
structure State.HasOperands (s : State) (b a : Int) : Prop where
  depth : 1 ≤ s.sp
  inStack : s.sp < s.cfg.stackCapacity
  top : s.stk.read s.sp.toNat = some a
  second : s.stk.read (s.sp - 1).toNat = some b
  topIsCell : Representable s.cfg.cellW a
  secondIsCell : Representable s.cfg.cellW b

/-- The instruction of a binary operation. -/
def ArithOp.instr : ArithOp → Instr
  | .add => .add
  | .sub => .sub
  | .mul => .mul
  | .div => .div

/-- The same outcome with its next state changed by `f`. -/
def mapNext (f : State → State) : Host.Outcome State Fault Refusal → Host.Outcome State Fault Refusal
  | .next t => .next (f t)
  | .fault r => .fault r
  | .refused r => .refused r

/-- The state with A to F as in `v` (R22). -/
def State.withReserved (v : RegFile) (s : State) : State :=
  { s with regs := { v with ip := s.regs.ip, sp := s.regs.sp } }

/-- The state with other cells in the instruction memory. -/
def State.withImem (m : Memory) (s : State) : State := { s with imem := m }

/-- A run of instructions given as a list, one after the other, stopping at the first halt, fault or refusal. -/
def execAll (is : List Instr) (s : State) : Host.Outcome State Fault Refusal :=
  match is with
  | [] => .next s
  | i :: rest =>
    match exec i s with
    | .next t => if t.running then execAll rest t else .next t
    | .fault r => .fault r
    | .refused r => .refused r

/-- `k` steps, stopping at the first fault or refusal (R74): the host's `Host.Core.run` of this machine
(Laws/Run.lean proves the two equal). -/
def runSteps (k : Nat) (s : State) : Host.Outcome State Fault Refusal :=
  match k with
  | 0 => .next s
  | k + 1 =>
    match step s with
    | .next t => runSteps k t
    | .fault r => .fault r
    | .refused r => .refused r

/-- The cells of a state's stream, from index `i`, `k` of them: `none` if one is not loaded. -/
def Memory.slice (m : Memory) (i : Nat) : Nat → Option (List Int)
  | 0 => some []
  | k + 1 =>
    match m.read i, Memory.slice m (i + 1) k with
    | some v, some vs => some (v :: vs)
    | _, _ => none

end Sys2Proof.Machine
end

