-- ==== Sys2Proof/Certificates/Slice0/Obligations.lean ====
section
/-!
DEFINITION. The statements for the provers: what the spec's rules say the machine does, each over every state that meets its
hypotheses. Each docstring names the rule it formalises.
-/

open Sys2Proof Sys2Proof.Machine

/-! ### Encoding and decoding -/

/-- A few words of R63's table, written out, decode to the instructions they stand for. -/
def Obligations.StandardWordsDecode : Prop :=
  decodeWords OpcodeMap.standard [0x00000000#32, 0x80000000#32] = .instr (.psh (-2147483648)) [] ∧
  decodeWords OpcodeMap.standard [0x00000001#32] = .instr .pop [] ∧
  decodeWords OpcodeMap.standard [0x00000003#32] = .instr .sub [] ∧
  decodeWords OpcodeMap.standard [0x00000007#32, 0x00000000#32] = .instr .hlt [0] ∧
  decodeWords OpcodeMap.standard [0x00000102#32] = .unknownOpcode 258

/-- Decoding inverts encoding, bit for bit, at every cell width, for every instruction with every immediate of that width,
every legal opcode map and whatever words follow (R8, R61, R62, R64, R65, R66). -/
def Obligations.DecodeInvertsEncode : Prop :=
  ∀ (w : Nat) (m : OpcodeMap) (i : Instr) (rest : List (BitVec w)), m.wellFormed w = true →
    i.wellFormed w = true →
    decodeWords m (encodeWords w m i ++ rest) = .instr i (rest.map cellOfBits)

/-- The decoder accepts nothing but encodings: there are no don't-care bits and no cell is skipped (R61, R62, R64). -/
def Obligations.DecodeAcceptsOnlyEncodings : Prop :=
  ∀ (m : OpcodeMap) (cells : List Int) (i : Instr) (rest : List Int),
    decode m cells = .instr i rest → cells = encode m i ++ rest

/-- R64 and R68: the whole opcode cell is compared, and an opcode-position cell that equals no opcode value, the UNKNOWN
sentinel's among them, halts with UnknownOpcode (code 3) and changes nothing else. -/
def Obligations.NonOpcodeCellsHaltUnknown : Prop :=
  (∀ (w : Nat) (m : OpcodeMap) (v : Int) (op : Opcode), m.wellFormed w = true →
      (decodeOpcode m v = some op ↔ v = m.value op)) ∧
  (∀ v : Int, (v < 0 ∨ 7 < v) → decodeOpcode OpcodeMap.standard v = none) ∧
  (∀ (s : State) (v : Int), s.Ready → s.imem.read s.ip.toNat = some v →
      ((∀ op, v ≠ s.cfg.opcodes.value op) ∨ v = s.cfg.opcodes.unknown) →
      ∃ t, step s = .next t ∧ s.HaltsInto t .unknownOpcode) ∧
  HaltCause.code .unknownOpcode = 3

/-- A host serialises a cell of `8 n` bits to `n` bytes, byte `k` bits `8k+7:8k`, and its loader reads back every stream of
cells (R45). -/
def Obligations.CellBytesRoundTrip : Prop :=
  ∀ (n : Nat) (cells : List Int), 1 ≤ n → (∀ v ∈ cells, Representable (8 * n) v) →
    cellsOfBytes (8 * n) cells.length (cells.flatMap (cellBytes (8 * n))) = cells ∧
    ∀ v ∈ cells, (cellBytes (8 * n) v).length = n ∧
      ∀ k, k < n → (cellBytes (8 * n) v)[k]? = some ((cellBits (8 * n) v).extractLsb' (8 * k) 8)

/-- The pre-decoded entry at IP says what the step does (R75). -/
def Obligations.PredecodedEntryIsTheStep : Prop :=
  ∀ (s : State) (cells : List Int), s.Ready → s.imem.slice 0 s.streamLen = some cells →
    ∀ e ∈ predecode s.cfg.opcodes 0 cells, (e.index : Int) = s.ip →
      step s =
        match e with
        | .instr _ i => exec i s
        | .pshTruncated _ => .next (s.raiseHalt .missingHalt)
        | .unknown _ _ => .next (s.raiseHalt .unknownOpcode)

/-- IP visits the pre-decoded entries alone, or stands at N: every step keeps that (R66, R75). -/
def Obligations.IpStaysOnTheWalk : Prop :=
  ∀ (s t : State) (cells : List Int), s.Inv → s.imem.slice 0 s.streamLen = some cells →
    (s.ip = s.n ∨ ∃ e ∈ predecode s.cfg.opcodes 0 cells, (e.index : Int) = s.ip) →
    step s = .next t →
    (t.ip = t.n ∨ ∃ e ∈ predecode t.cfg.opcodes 0 cells, (e.index : Int) = t.ip)

/-! ### The cycle -/

/-- When the cells at IP decode to an instruction and lie inside the stream, the step is that instruction's execution, with
nothing around it (R70 to R72). -/
def Obligations.StepRunsTheDecodedInstruction : Prop :=
  ∀ (s : State) (i : Instr) (cells : List Int), s.Ready → i.wellFormed s.cfg.cellW = true →
    s.ip + i.opcode.length ≤ s.n →
    s.imem.slice s.ip.toNat i.opcode.length = some cells → decode s.cfg.opcodes cells = .instr i [] →
    step s = exec i s

/-- R70: out of range without HLT having fired, the step halts with MissingHalt, a failure. -/
def Obligations.PastTheEndHaltsMissingHalt : Prop :=
  ∀ s : State, s.running = true → s.n ≤ s.cfg.imemDepth → ¬(0 ≤ s.ip ∧ s.ip < s.n) →
    ∃ t, step s = .next t ∧ s.HaltsInto t .missingHalt ∧ t.haltCause.success = false

/-- A PSH opcode in the last cell of the stream halts with MissingHalt, whether or not the stack is full (R102, R145). -/
def Obligations.TruncatedPshHaltsMissingHalt : Prop :=
  ∀ s : State, s.Ready → s.ip + 1 = s.n → s.imem.read s.ip.toNat = some s.cfg.opcodes.psh →
    ∃ t, step s = .next t ∧ s.HaltsInto t .missingHalt

/-- In the Halted state nothing is fetched and everything is held (R149; that the model shows this as a step that holds the
state is log entry 8). -/
def Obligations.HaltedStateIsHeld : Prop :=
  ∀ s : State, s.running = false → step s = .next s ∧ s.imemRequests = []

/-- A stream longer than the instruction memory has no launch and no step (R33, R86, 93_implementation_defined.md; log
entry 9). -/
def Obligations.OverlongStreamIsRefused : Prop :=
  (∀ s : State, s.running = true → s.cfg.imemDepth < s.n → step s = .refused .streamLenOutOfRange) ∧
  (∀ (s : State) (cells : List Int), s.cfg.imemDepth < cells.length →
    s.start cells = .error .streamTooLong)

/-- A step from a running state either completes, with IP advanced by 1 or 2 and at most one record, or halts, with RUNNING
and HALT_CAUSE written and nothing else changed (R74). -/
def Obligations.StepCompletesOrHalts : Prop :=
  ∀ s t : State, s.Inv → s.running = true → step s = .next t →
    (∃ dIp dSp records, s.CompletesInto t dIp dSp records ∧ (dIp = 1 ∨ dIp = 2) ∧ records.length ≤ 1) ∨
      ∃ c, s.HaltsInto t c

/-- R146: halts are precise. At the cycle's own MissingHalt IP is the N that failed the check. -/
def Obligations.HaltsArePrecise : Prop :=
  (∀ (i : Instr) (s t : State), s.running = true → exec i s = .next t → t.running = false →
      s.HaltsInto t t.haltCause) ∧
  (∀ s t : State, s.running = true → step s = .next t → t.running = false → s.HaltsInto t t.haltCause) ∧
  (∀ s t : State, s.Inv → s.running = true → s.pastEnd = true → step s = .next t → t.ip = t.n)

/-- R73 and R134: the one IP update. An instruction that completes advances IP by its length, 2 for PSH and 1 for the others;
one that halts leaves it; no step lowers it. -/
def Obligations.IpAdvancesByTheLength : Prop :=
  (∀ (i : Instr) (s t : State), s.running = true → exec i s = .next t →
      (t.running = true → t.ip = s.ip + (match i with | .psh _ => 2 | _ => 1)) ∧
      (t.running = false → t.ip = s.ip)) ∧
  (∀ s t : State, s.Inv → step s = .next t → s.ip ≤ t.ip)

/-- The depth changes by +1 on PSH, by -1 on POP and the arithmetic instructions, and not on a halt (R106). -/
def Obligations.DepthAccounting : Prop :=
  ∀ (i : Instr) (s t : State), s.running = true → exec i s = .next t →
    (t.running = false → t.sp = s.sp) ∧
    (t.running = true → t.sp = s.sp + (match i with | .psh _ => 1 | _ => -1))

/-- Each instruction halts with the causes of its own set alone: PSH {1, 7}; POP {2}; ADD, SUB, MUL {2, 5}; DIV {2, 5, 6};
SET {4}; HLT {0} (R142). -/
def Obligations.CausesByInstruction : Prop :=
  ∀ (i : Instr) (s t : State), s.running = true → exec i s = .next t → t.running = false →
    t.haltCause.code ∈
      (match i with
        | .psh _ => [1, 7]
        | .pop => [2]
        | .add => [2, 5]
        | .sub => [2, 5]
        | .mul => [2, 5]
        | .div => [2, 5, 6]
        | .set => [4]
        | .hlt => [0] : List (BitVec 3))

/-! ### The stack instructions -/

/-- R102: PSH. -/
def Obligations.PshPushesItsImmediate : Prop :=
  (∀ imm : Int, encode OpcodeMap.standard (.psh imm) = [0, imm]) ∧
  (∀ (imm : Int) (s : State), s.n ≤ s.ip + 1 →
      ∃ t, exec (.psh imm) s = .next t ∧ s.HaltsInto t .missingHalt) ∧
  (∀ (imm : Int) (s : State), s.ip + 1 < s.n → s.sp = s.cfg.stackCapacity - 1 →
      ∃ t, exec (.psh imm) s = .next t ∧ s.HaltsInto t .stackOverflow) ∧
  (∀ (imm : Int) (s : State), s.Ready → s.ip + 1 < s.n → -1 ≤ s.sp → s.sp < s.cfg.stackCapacity - 1 →
      ∃ t, exec (.psh imm) s = .next t ∧ s.CompletesInto t 2 1 [] ∧
        t.stk.read (s.sp + 1).toNat = some imm ∧ s.StackSameExcept t (s.sp + 1))

/-- R103: POP. -/
def Obligations.PopEmitsTheTop : Prop :=
  encode OpcodeMap.standard .pop = [1] ∧
  (∀ s : State, s.sp = -1 → ∃ t, exec .pop s = .next t ∧ s.HaltsInto t .stackUnderflow) ∧
  (∀ (s : State) (v : Int), s.Ready → 0 ≤ s.sp → s.sp < s.cfg.stackCapacity →
      s.stk.read s.sp.toNat = some v →
      ∃ t, exec .pop s = .next t ∧ s.CompletesInto t 1 (-1) [.popped v] ∧ s.StackSame t)

/-- Pushing `k` values and then popping `k` values emits them in the reverse order and leaves the depth as it was, from any
depth that leaves room for them (R104). -/
def Obligations.PushedValuesPopInReverse : Prop :=
  ∀ (s : State) (vs : List Int), (∀ v ∈ vs, Representable s.cfg.cellW v) → s.Inv → s.running = true →
    s.sp + vs.length < s.cfg.stackCapacity → s.ip + 3 * vs.length ≤ s.n →
    ∃ t, execAll (vs.map Instr.psh ++ List.replicate vs.length Instr.pop) s = .next t ∧
      t.running = true ∧ t.trace = s.trace ++ vs.reverse.map OutRecord.popped ∧ t.sp = s.sp

/-- From an empty stack the first `STACK_CAPACITY` pushes succeed and the next halts with StackOverflow, the pushed values in
place (R105). -/
def Obligations.OverflowIsExact : Prop :=
  ∀ (s : State) (vs : List Int) (v : Int), (∀ x ∈ vs, Representable s.cfg.cellW x) → s.Inv → s.running = true → s.sp = -1 →
    vs.length = s.cfg.stackCapacity → s.ip + 2 * (vs.length + 1) ≤ s.n →
    (∃ t, execAll (vs.map Instr.psh) s = .next t ∧ t.running = true) ∧
    ∃ t, execAll (vs.map Instr.psh ++ [Instr.psh v]) s = .next t ∧ t.running = false ∧
      t.haltCause = .stackOverflow ∧ t.sp = s.cfg.stackCapacity - 1 ∧
      ∀ k : Nat, k < vs.length → t.stk.read k = vs[k]?

/-! ### The arithmetic instructions -/

/-- R111: ADD, with the hazard test as the rule writes it, which holds only where the sum is no cell. -/
def Obligations.AddMeaning : Prop :=
  encode OpcodeMap.standard .add = [2] ∧
  (∀ s : State, s.sp < 1 → ∃ t, exec .add s = .next t ∧ s.HaltsInto t .stackUnderflow) ∧
  (∀ (s : State) (b a : Int), s.HasOperands b a →
      ((b > 0 ∧ a > cellMax s.cfg.cellW - b) ∨ (b < 0 ∧ a < cellMin s.cfg.cellW - b)) →
      ¬ Representable s.cfg.cellW (b + a) ∧
        ∃ t, exec .add s = .next t ∧ s.HaltsInto t .arithmeticOverflow) ∧
  (∀ (s : State) (b a : Int), s.Ready → s.HasOperands b a →
      ¬((b > 0 ∧ a > cellMax s.cfg.cellW - b) ∨ (b < 0 ∧ a < cellMin s.cfg.cellW - b)) →
      ∃ t, exec .add s = .next t ∧ s.CommitsBinary t .add b a (b + a))

/-- R113: SUB under `OVF_BAND_POLICY = EXACT`, with the hazard test as the rule writes it, which holds only where the
difference is no cell. -/
def Obligations.SubMeaning : Prop :=
  encode OpcodeMap.standard .sub = [3] ∧
  (∀ s : State, s.sp < 1 → ∃ t, exec .sub s = .next t ∧ s.HaltsInto t .stackUnderflow) ∧
  (∀ (s : State) (b a : Int), s.cfg.ovfBands = .exactTest → s.HasOperands b a →
      ((a < 0 ∧ b > cellMax s.cfg.cellW + a) ∨ (a > 0 ∧ b < cellMin s.cfg.cellW + a)) →
      ¬ Representable s.cfg.cellW (b - a) ∧
        ∃ t, exec .sub s = .next t ∧ s.HaltsInto t .arithmeticOverflow) ∧
  (∀ (s : State) (b a : Int), s.Ready → s.cfg.ovfBands = .exactTest → s.HasOperands b a →
      ¬((a < 0 ∧ b > cellMax s.cfg.cellW + a) ∨ (a > 0 ∧ b < cellMin s.cfg.cellW + a)) →
      ∃ t, exec .sub s = .next t ∧ s.CommitsBinary t .sub b a (b - a))

/-- R115: MUL under `OVF_BAND_POLICY = EXACT`, with the hazard test as the rule writes it (`//t` is `Int.tdiv`),
which holds only where the product is no cell. -/
def Obligations.MulMeaning : Prop :=
  encode OpcodeMap.standard .mul = [4] ∧
  (∀ s : State, s.sp < 1 → ∃ t, exec .mul s = .next t ∧ s.HaltsInto t .stackUnderflow) ∧
  (∀ (s : State) (b a : Int), s.cfg.ovfBands = .exactTest → s.HasOperands b a →
      ((b > 0 ∧ a > 0 ∧ b > (cellMax s.cfg.cellW).tdiv a) ∨
        (b > 0 ∧ a < 0 ∧ a < (cellMin s.cfg.cellW).tdiv b) ∨
        (b < 0 ∧ a > 0 ∧ b < (cellMin s.cfg.cellW).tdiv a) ∨
        (b < 0 ∧ a < 0 ∧ b < (cellMax s.cfg.cellW).tdiv a)) →
      ¬ Representable s.cfg.cellW (b * a) ∧
        ∃ t, exec .mul s = .next t ∧ s.HaltsInto t .arithmeticOverflow) ∧
  (∀ (s : State) (b a : Int), s.Ready → s.cfg.ovfBands = .exactTest → s.HasOperands b a →
      ¬((b > 0 ∧ a > 0 ∧ b > (cellMax s.cfg.cellW).tdiv a) ∨
        (b > 0 ∧ a < 0 ∧ a < (cellMin s.cfg.cellW).tdiv b) ∨
        (b < 0 ∧ a > 0 ∧ b < (cellMin s.cfg.cellW).tdiv a) ∨
        (b < 0 ∧ a < 0 ∧ b < (cellMax s.cfg.cellW).tdiv a)) →
      ∃ t, exec .mul s = .next t ∧ s.CommitsBinary t .mul b a (b * a))

/-- R117 and R123: DIV, with the quotient as R123 writes it. -/
def Obligations.DivMeaning : Prop :=
  encode OpcodeMap.standard .div = [5] ∧
  (∀ s : State, s.sp < 1 → ∃ t, exec .div s = .next t ∧ s.HaltsInto t .stackUnderflow) ∧
  (∀ (s : State) (b a : Int), s.HasOperands b a → a = 0 →
      ∃ t, exec .div s = .next t ∧ s.HaltsInto t .divisionByZero) ∧
  (∀ (s : State) (b a : Int), s.HasOperands b a → b = cellMin s.cfg.cellW → a = -1 →
      ∃ t, exec .div s = .next t ∧ s.HaltsInto t .arithmeticOverflow) ∧
  (∀ (s : State) (b a : Int), s.Ready → s.HasOperands b a → a ≠ 0 →
      ¬(b = cellMin s.cfg.cellW ∧ a = -1) →
      ∃ t, exec .div s = .next t ∧ s.CommitsBinary t .div b a
        (b.sign * a.sign * ((b.natAbs / a.natAbs : Nat) : Int)))

/-- R120: the result is the exact mathematical one whenever that is representable, and the instruction halts otherwise, on
every operand to which the band policy gives a meaning. -/
def Obligations.ArithmeticIsExactOrHalts : Prop :=
  ∀ (op : ArithOp) (s : State) (b a : Int) (x : Int), s.Ready → s.HasOperands b a →
    (s.cfg.ovfBands = .exactTest ∨ op.inBand s.cfg.cellW b a = false) →
    (match op with
      | .add => x = b + a
      | .sub => x = b - a
      | .mul => x = b * a
      | .div => a ≠ 0 ∧ x = b.tdiv a) →
    (Representable s.cfg.cellW x → ∃ t, exec op.instr s = .next t ∧ s.CommitsBinary t op b a x) ∧
    (¬ Representable s.cfg.cellW x → ∃ t, exec op.instr s = .next t ∧ s.HaltsInto t .arithmeticOverflow)

/-- At every cell width and for representable operands, each hazard test holds exactly when the exact result is not
representable (R112, R114, R116, and R117 for a divisor other than 0). -/
def Obligations.HazardTestsAreExact : Prop :=
  ∀ (w : Nat) (b a : Int), Representable w b → Representable w a →
    (addOverflows w b a = true ↔ ¬ Representable w (b + a)) ∧
    (subOverflows w b a = true ↔ ¬ Representable w (b - a)) ∧
    (mulOverflows w b a = true ↔ ¬ Representable w (b * a)) ∧
    (a ≠ 0 → (ArithOp.div.hazard w b a = some .arithmeticOverflow ↔ ¬ Representable w (divTrunc b a)))

/-- The quotient is the one that rounds toward zero: it is no larger than the dividend, leaves less than the divisor, and
what it leaves has the dividend's sign or is 0 (R123). -/
def Obligations.DivisionRoundsTowardZero : Prop :=
  ∀ b a : Int, a ≠ 0 →
    divTrunc b a = b.tdiv a ∧ (b - a * divTrunc b a).natAbs < a.natAbs ∧
      (a * divTrunc b a).natAbs ≤ b.natAbs ∧ 0 ≤ b * (b - a * divTrunc b a)

/-- Under `OVF_BAND_POLICY = REFUSE` the operands of R128's bands are refused, and nothing else is: in every state and under
either policy, an instruction that is refused is SUB or MUL, under REFUSE, with its two operands in its band, and the
refusal is that band's. The SUB bands are exactly where the source's formula and the exact test differ. -/
def Obligations.BandsAreRefusedUnderRefuse : Prop :=
  (∀ (s : State) (b a : Int), s.cfg.ovfBands = .refuseBands → s.HasOperands b a →
      (exec .sub s = .refused (.overflowBand .sub) ↔
        b - a = cellMin s.cfg.cellW ∨ b - a = cellMax s.cfg.cellW + 1) ∧
      (exec .mul s = .refused (.overflowBand .mul) ↔ b * a = cellMin s.cfg.cellW)) ∧
  (∀ (i : Instr) (s : State) (r : Refusal), exec i s = .refused r →
      s.cfg.ovfBands = .refuseBands ∧ 1 ≤ s.sp ∧ s.sp < s.cfg.stackCapacity ∧
        ∃ b a : Int, s.stk.read s.sp.toNat = some a ∧ s.stk.read (s.sp - 1).toNat = some b ∧
          ((i = .sub ∧ r = .overflowBand .sub ∧ (b - a = cellMin s.cfg.cellW ∨ b - a = cellMax s.cfg.cellW + 1)) ∨
            (i = .mul ∧ r = .overflowBand .mul ∧ b * a = cellMin s.cfg.cellW))) ∧
  (∀ (w : Nat) (b a : Int), Representable w b → Representable w a →
      (ArithOp.sub.inBand w b a = true ↔
        ¬(subOverflows w b a = true ↔ (b > 0 ∧ a < cellMin w + b) ∨ (b < 0 ∧ a > cellMax w + b))))

/-! ### SET, HLT and the halt causes -/

/-- R130: SET always halts with UnimplementedOpcode (code 4), whatever the stack holds, and changes nothing else. -/
def Obligations.SetHaltsUnimplemented : Prop :=
  encode OpcodeMap.standard .set = [6] ∧ HaltCause.code .unimplementedOpcode = 4 ∧
  ∀ s : State, ∃ t, exec .set s = .next t ∧ s.HaltsInto t .unimplementedOpcode

/-- R132 and R133: HLT always halts normally, a success, and changes nothing else; no other instruction and no cycle check
ends a run with success. -/
def Obligations.HltHaltsNormally : Prop :=
  encode OpcodeMap.standard .hlt = [7] ∧ HaltCause.code .normal = 0 ∧
  (∀ s : State, ∃ t, exec .hlt s = .next t ∧ s.HaltsInto t .normal ∧ t.haltCause.success = true) ∧
  (∀ (i : Instr) (s t : State), s.running = true → exec i s = .next t → t.running = false →
      t.haltCause.success = true → i = .hlt) ∧
  (∀ s t : State, s.running = true → step s = .next t → t.running = false →
      t.haltCause.success = true → s.fetch = .instr .hlt)

/-- The codes of HALT_CAUSE are those of R141's table, all eight 3-bit values, and success is code 0 alone (R150). -/
def Obligations.HaltCauseCodes : Prop :=
  [HaltCause.normal, .stackOverflow, .stackUnderflow, .unknownOpcode, .unimplementedOpcode, .arithmeticOverflow,
      .divisionByZero, .missingHalt].map HaltCause.code = [0, 1, 2, 3, 4, 5, 6, 7] ∧
    ∀ c : HaltCause, c.success = true ↔ c.code = 0

/-! ### State: what is fixed, what is reserved, what is dead -/

/-- R20 and R21: the register file's entries in the order of their indices, each holding what was last written to it; IP and SP
are entries of it. -/
def Obligations.RegisterFileEntries : Prop :=
  [Reg.a, .b, .c, .d, .e, .f, .ip, .sp].map Reg.index = [0, 1, 2, 3, 4, 5, 6, 7] ∧
  (∀ (s : State) (r q : Reg) (v : Int),
      (s.setReg r v).regs.get q = if q.index = r.index then v else s.regs.get q) ∧
  (∀ (s : State) (v : Int), (s.setReg .ip v).ip = v ∧ (s.setReg .sp v).sp = v)

/-- No step writes the parameters, the stream, STREAM_LEN or A to F (R22, R33, R35, R41). -/
def Obligations.StepKeepsTheFixedState : Prop :=
  ∀ s t : State, step s = .next t → s.SameFixed t

/-- R22: no instruction reads or writes A to F. Two states that differ in them alone take steps that differ in them alone. -/
def Obligations.ReservedRegistersDoNotMatter : Prop :=
  ∀ (s : State) (v : RegFile), step (s.withReserved v) = mapNext (State.withReserved v) (step s)

/-- Dead stack entries cannot be observed: a step from a state that differs above SP alone does the same, and leaves the same
live entries (R28). -/
def Obligations.DeadEntriesDoNotMatter : Prop :=
  ∀ (s t : State) (m : Memory), s.Inv → (∀ j : Nat, (j : Int) ≤ s.sp → m.read j = s.stk.read j) →
    step s = .next t →
    ∃ u, step (s.setStk m) = .next u ∧ u.setStk [] = t.setStk [] ∧
      ∀ j : Nat, (j : Int) ≤ t.sp → u.stk.read j = t.stk.read j

/-- A step depends on the stream's cells it requests alone, each of them below N (R40, R54, R135): cells after an executed
HLT, and cells outside the stream, have no effect. -/
def Obligations.OnlyRequestedCellsMatter : Prop :=
  (∀ s : State, ∀ r ∈ s.imemRequests, 0 ≤ r ∧ r < s.n) ∧
  (∀ (s : State) (m : Memory), (∀ r ∈ s.imemRequests, m.read r.toNat = s.imem.read r.toNat) →
    step (s.withImem m) = mapNext (State.withImem m) (step s))

/-! ### Invariants and whole runs -/

/-- Every step keeps the invariant: `0 ≤ ip ≤ N`, `0 ≤ sp+1 ≤ capacity`, every live entry written, both memories canonical and
inside their bounds (R24, R27, R29). -/
def Obligations.StepKeepsTheInvariant : Prop :=
  ∀ s t : State, s.Inv → step s = .next t → t.Inv

/-- The state after reset meets the invariant. -/
def Obligations.ResetMeetsTheInvariant : Prop := State.reset.Inv

/-- From a state that meets the invariant no step faults, so that no unwritten entry, no entry outside the stack and no cell
that is not loaded is ever read; under EXACT every step has a next state (R29, R54). -/
def Obligations.NoFaultFromTheInvariant : Prop :=
  ∀ s : State, s.Inv →
    (∀ f, step s ≠ .fault f) ∧ (s.cfg.ovfBands = .exactTest → ∃ t, step s = .next t)

/-- Every run halts within `N + 1` steps (R76). -/
def Obligations.EveryRunHalts : Prop :=
  ∀ s : State, s.Inv → s.cfg.ovfBands = .exactTest →
    ∃ t, runSteps (s.streamLen + 1) s = .next t ∧ t.running = false

/-! ### Reset and boot -/

/-- R172, R173 and R176: after reset, from any state, IP is 0, SP is -1, RUNNING is 1, HALT_CAUSE is 0 and the trace is
empty, as they are in the model's own reset state. -/
def Obligations.ResetValues : Prop :=
  (∀ (s : State) (n : Nat),
    (s.applyReset n).ip = 0 ∧ (s.applyReset n).sp = -1 ∧ (s.applyReset n).running = true ∧
      (s.applyReset n).haltCause.code = 0 ∧ (s.applyReset n).trace = []) ∧
  State.reset.ip = 0 ∧ State.reset.sp = -1 ∧ State.reset.running = true ∧ State.reset.haltCause.code = 0 ∧
    State.reset.trace = []

/-- A stream that fits is loaded at cells `0 … N-1`, N is presented, and the machine starts in a state that meets the
invariant (R177, R24). -/
def Obligations.StartLoadsTheStream : Prop :=
  ∀ (s : State) (cells : List Int), s.HostInForm → (∀ v ∈ cells, Representable s.cfg.cellW v) →
    cells.length ≤ s.cfg.imemDepth →
    ∃ t, s.start cells = .ok t ∧ t.Inv ∧ t.running = true ∧ t.ip = 0 ∧ t.n = cells.length ∧
      ∀ k : Nat, k < cells.length → t.imem.read k = cells[k]?

/-- R178: a block started with an empty stream halts at its first step with MissingHalt, `ip = 0`, `sp = -1` and an empty
trace. -/
def Obligations.EmptyStreamHaltsAtOnce : Prop :=
  ∀ s : State, ∃ t u, s.start [] = .ok t ∧ step t = .next u ∧ u.running = false ∧ u.haltCause = .missingHalt ∧
    u.ip = 0 ∧ u.sp = -1 ∧ u.trace = []

/-! ### Ports -/

/-- The beats of the output port: a completed POP adds one beat of kind 1 with left and right 0, and a completed arithmetic
instruction one beat of kind 2, 3, 4 or 5 with `left = b`, `right = a` (R47, R55). -/
def Obligations.OutputBeats : Prop :=
  (∀ (s t : State) (v : Int), s.running = true → s.stk.read s.sp.toNat = some v → 0 ≤ s.sp →
      exec .pop s = .next t → t.running = true →
      t.beats = s.beats ++ [{ kind := 1, left := 0, right := 0, value := v }]) ∧
  (∀ (op : ArithOp) (s t : State) (b a : Int), s.running = true → s.HasOperands b a →
      exec op.instr s = .next t → t.running = true →
      ∃ r, t.stk.read (s.sp - 1).toNat = some r ∧
        t.beats = s.beats ++
          [{ kind := (match op with | .add => 2 | .sub => 3 | .mul => 4 | .div => 5),
             left := b, right := a, value := r }])

/-- The status ports show RUNNING, HALT_CAUSE, IP and SP; the stack read-back of a halted machine shows every live entry,
whatever the unspecified value is (R56). -/
def Obligations.StatusAndReadBackPorts : Prop :=
  (∀ s : State, s.statusPorts.running = (if s.running then 1 else 0) ∧ s.statusPorts.haltCause = s.haltCause.code ∧
      s.statusPorts.ipO = s.ip ∧ s.statusPorts.spO = s.sp) ∧
  (∀ (s : State) (addr : Int), s.Inv → s.running = false → 0 ≤ addr → addr ≤ s.sp →
      ∃ v, s.stk.read addr.toNat = some v ∧ ∀ unspecified, s.dbgStkData unspecified addr = v)

/-! ### The assembler -/

/-- R82: resolution is exact, case-sensitive and total; any other string has the UNKNOWN sentinel's value. -/
def Obligations.MnemonicsResolveExactly : Prop :=
  (∀ (tok : Token) (op : Opcode), resolve tok = some op ↔ tok = mnemonic op) ∧
  (∀ (m : OpcodeMap) (op : Opcode), mnemonicValue m (mnemonic op) = m.value op) ∧
  (∀ (m : OpcodeMap) (tok : Token), (∀ op, tok ≠ mnemonic op) → mnemonicValue m tok = m.unknown) ∧
  Opcode.psh :: [.pop, .add, .sub, .mul, .div, .set, .hlt] =
    [['P', 'S', 'H'], ['P', 'O', 'P'], ['A', 'D', 'D'], ['S', 'U', 'B'], ['M', 'U', 'L'], ['D', 'I', 'V'],
      ['S', 'E', 'T'], ['H', 'L', 'T']].filterMap resolve

/-- R83: a token is a literal exactly when it is an optional sign and one or more decimal digits whose value lies in
`[MIN, MAX]`; PSH assembles with a literal to the opcode cell and the literal's value, and with any other token fails with
MalformedOperand (under SKIP: the name under REJECT is `UnknownTokensByPolicy`'s). -/
def Obligations.LiteralsAreSignedDecimal : Prop :=
  (∀ (cfg : Config) (tok : Token) (v : Int) (toks : List Token) (out : List Int), literal cfg.cellW tok = some v →
    assembleTokens cfg toks = .ok out →
    assembleTokens cfg (mnemonic .psh :: tok :: toks) = .ok (cfg.opcodes.psh :: v :: out)) ∧
  (∀ (cfg : Config) (tok : Token) (toks : List Token), cfg.unknownTokens = .skip → literal cfg.cellW tok = none →
    assembleTokens cfg (mnemonic .psh :: tok :: toks) = .error .malformedOperand) ∧
  ∀ (w : Nat) (tok : Token) (v : Int), literal w tok = some v ↔
    Representable w v ∧ ∃ (sign digits : List Char), tok = sign ++ digits ∧ (sign = [] ∨ sign = ['+'] ∨ sign = ['-']) ∧ digits ≠ [] ∧
      (∀ c ∈ digits, 48 ≤ c.toNat ∧ c.toNat ≤ 57) ∧
      v = (if sign = ['-'] then -1 else 1) *
        (digits.foldl (fun (acc : Int) c => 10 * acc + ((c.toNat : Int) - 48)) 0)

/-- R85: an unknown token is skipped under SKIP and fails assembly under REJECT; a PSH without a literal fails with
MalformedOperand under SKIP and with MalformedProgram under REJECT. -/
def Obligations.UnknownTokensByPolicy : Prop :=
  ∀ (cfg : Config) (tok : Token) (toks : List Token),
    (resolve tok = none →
      (cfg.unknownTokens = .skip → assembleTokens cfg (tok :: toks) = assembleTokens cfg toks) ∧
      (cfg.unknownTokens = .reject → assembleTokens cfg (tok :: toks) = .error .malformedProgram)) ∧
    ((∀ l ∈ toks.head?, literal cfg.cellW l = none) →
      (cfg.unknownTokens = .skip → assembleTokens cfg (mnemonic .psh :: toks) = .error .malformedOperand) ∧
      (cfg.unknownTokens = .reject → assembleTokens cfg (mnemonic .psh :: toks) = .error .malformedProgram))

/-- A comment contributes nothing, on a line that a line feed ends and on a last line that none does (R80). The whitespace
characters are those of R81, a token is not empty and holds none of them and no `#`, and the tokens of a text without
comments are its maximal runs of other characters, in order: whatever whitespace stands before them, any whitespace that is
not empty between them, and a last one that may end the text (R81). -/
def Obligations.CommentsAndWhitespace : Prop :=
  (∀ pre comment post : List Char, '\n' ∉ comment →
      tokenize (pre ++ '#' :: comment ++ '\n' :: post) = tokenize (pre ++ '\n' :: post)) ∧
  (∀ pre comment : List Char, '\n' ∉ comment → tokenize (pre ++ '#' :: comment) = tokenize pre) ∧
  (∀ c : Char, isSpace c = true ↔ c.toNat ∈ [32, 9, 13, 10, 11, 12]) ∧
  (∀ text : List Char, ∀ tok ∈ tokenize text, tok ≠ [] ∧ ∀ c ∈ tok, isSpace c = false ∧ c ≠ '#') ∧
  (∀ (lead : List Char) (items : List (Token × List Char)) (last : Token),
      (∀ c ∈ lead, isSpace c = true) →
      (∀ p ∈ items, p.1 ≠ [] ∧ (∀ c ∈ p.1, isSpace c = false ∧ c ≠ '#') ∧ p.2 ≠ [] ∧ ∀ c ∈ p.2, isSpace c = true) →
      (∀ c ∈ last, isSpace c = false ∧ c ≠ '#') →
      tokenize (lead ++ items.flatMap (fun p => p.1 ++ p.2) ++ last) =
        items.map Prod.fst ++ (if last = [] then [] else [last]))

/-- The assembly loop (R84): the empty token sequence assembles to the empty stream, each mnemonic but PSH appends exactly
one cell, its opcode's, to what the tokens after it assemble to, PSH with a literal its two, and a failure further on is the
program's failure; a source is assembled by its tokens, and one that cannot be read fails with SourceUnreadable (R87). What
the assembler produces is encodings of well-formed instructions alone: every opcode-position cell of a stream is an opcode
and every PSH has its operand cell, a cell of the machine's width (R62, R83, R86). -/
def Obligations.AssembledStreamsDecode : Prop :=
  (∀ cfg : Config, assembleTokens cfg [] = .ok []) ∧
  (∀ (cfg : Config) (op : Opcode) (toks : List Token), op ≠ .psh →
    (∀ out, assembleTokens cfg toks = .ok out →
      assembleTokens cfg (mnemonic op :: toks) = .ok (cfg.opcodes.value op :: out)) ∧
    (∀ e, assembleTokens cfg toks = .error e → assembleTokens cfg (mnemonic op :: toks) = .error e)) ∧
  (∀ (cfg : Config) (tok : Token) (v : Int) (toks : List Token), literal cfg.cellW tok = some v →
    (∀ out, assembleTokens cfg toks = .ok out →
      assembleTokens cfg (mnemonic .psh :: tok :: toks) = .ok (cfg.opcodes.psh :: v :: out)) ∧
    (∀ e, assembleTokens cfg toks = .error e → assembleTokens cfg (mnemonic .psh :: tok :: toks) = .error e)) ∧
  (∀ (cfg : Config) (text : List Char), assemble cfg (some text) = assembleTokens cfg (tokenize text) ∧
    assemble cfg none = .error .sourceUnreadable) ∧
  ∀ (cfg : Config) (toks : List Token) (cells : List Int), cfg.wellFormed = true →
    assembleTokens cfg toks = .ok cells →
    (∃ is, (∀ i ∈ is, i.wellFormed cfg.cellW = true) ∧ cells = encodeAll cfg.opcodes is) ∧
      (∀ v ∈ cells, Representable cfg.cellW v) ∧
      ∀ e ∈ predecode cfg.opcodes 0 cells, ∃ idx i, e = .instr idx i

/-- A run of a booted program never halts with UnknownOpcode, and with MissingHalt only past the stream's end (R76, R86,
R102). -/
def Obligations.BootedRunsMeetNoIllegalCell : Prop :=
  ∀ (s t u : State) (source : Option (List Char)) (k : Nat), s.HostInForm → s.boot source = .ok t →
    runSteps k t = .next u →
    u.haltCause ≠ .unknownOpcode ∧ (u.haltCause = .missingHalt → u.ip = u.n)
end

