-- ==== Sys2Proof/Laws/Assembler.lean ====
section
/-!
SUPPORT. What the assembler's shared operations do: putting cells before a stream, and taking whitespace or a token's
characters off the front of a line.
-/

namespace Sys2Proof.Machine

theorem prependCells_ok {cells out : List Int} {r : Except AsmError (List Int)} :
    prependCells cells r = .ok out ↔ ∃ rest, r = .ok rest ∧ out = cells ++ rest := by
  cases r <;> simp [prependCells, eq_comm]

theorem prependCells_error {cells : List Int} {r : Except AsmError (List Int)} {e : AsmError} :
    prependCells cells r = .error e ↔ r = .error e := by
  cases r <;> simp [prependCells]

/-- Whitespace before a token begins contributes nothing. -/
theorem lineTokens_spaces {spaces : List Char} (rest : List Char) (h : ∀ c ∈ spaces, isSpace c = true) :
    lineTokens [] (spaces ++ rest) = lineTokens [] rest := by
  induction spaces with
  | nil => rfl
  | cons c cs ih =>
    simp only [List.cons_append, lineTokens, h c (List.mem_cons_self ..), if_true]
    exact ih fun d hd => h d (List.mem_cons_of_mem _ hd)

/-- Characters that are no whitespace extend the token already begun. -/
theorem lineTokens_token {tok : List Char} (cur rest : List Char) (h : ∀ c ∈ tok, isSpace c = false) :
    lineTokens cur (tok ++ rest) = lineTokens (cur ++ tok) rest := by
  induction tok generalizing cur with
  | nil => simp
  | cons c cs ih =>
    have := ih (cur ++ [c]) fun d hd => h d (List.mem_cons_of_mem _ hd)
    simp only [List.cons_append, lineTokens, h c (List.mem_cons_self ..)]
    simpa using this

end Sys2Proof.Machine
end

