-- ==== Sys2Proof/Laws/Cells.lean ====
section
/-!
SUPPORT. The laws of cells and parameters: a representable integer and its bits, and what legal parameters bound.
-/

namespace Sys2Proof

/-- The cell of a representable integer's bits is that integer (R8). -/
theorem cellOfBits_cellBits {w : Nat} {v : Int} (hw : 1 ≤ w) (h : Representable w v) : cellOfBits (cellBits w v) = v := by
  unfold cellOfBits cellBits
  obtain ⟨h1, h2⟩ := h
  rw [BitVec.toInt_ofInt]
  cases w with
  | zero => omega
  | succ n =>
    simp only [cellMin, cellMax, Nat.add_sub_cancel] at h1 h2
    have e : 2 ^ (n + 1) = 2 * 2 ^ n := by rw [Nat.pow_succ, Nat.mul_comm]
    rw [e]
    generalize 2 ^ n = k at *
    apply Int.bmod_eq_of_le <;> omega

/-- The legal parameters' bounds (R6). -/
theorem Config.bounds {c : Config} (h : c.wellFormed = true) :
    8 ≤ c.cellW ∧ 1 ≤ c.stackCapacity ∧ (c.stackCapacity : Int) ≤ cellMax c.cellW + 1 ∧ 1 ≤ c.imemDepth ∧
      (c.imemDepth : Int) ≤ cellMax c.cellW ∧ c.opcodes.wellFormed c.cellW = true := by
  simp only [Config.wellFormed, Bool.and_eq_true, decide_eq_true_eq] at h
  obtain ⟨⟨⟨⟨⟨h1, h2⟩, h3⟩, h4⟩, h5⟩, h6⟩ := h
  exact ⟨h1, h2, h3, h4, h5, h6⟩

end Sys2Proof
end

