-- ==== Sys2Proof/Laws/Memory.lean ====
section
/-!
SUPPORT. The laws of cells by index: read after write, and that every operation keeps the canonical form, the bound and
what is loaded.
-/

namespace Sys2Proof.Machine

@[simp] theorem Memory.read_nil (i : Nat) : Memory.read [] i = none := rfl

@[simp] theorem Memory.read_write_same (m : Memory) (i : Nat) (v : Int) : (m.write i v).read i = some v := by
  induction m with
  | nil => simp [Memory.write, Memory.read]
  | cons e rest ih =>
    obtain ⟨j, w⟩ := e
    simp only [Memory.write]
    split
    · simp [Memory.read]
    · split
      · simp [Memory.read]
      · simp only [Memory.read]
        rw [if_neg (by assumption)]
        exact ih

theorem Memory.read_write_other (m : Memory) {i j : Nat} (v : Int) (h : j ≠ i) :
    (m.write i v).read j = m.read j := by
  induction m with
  | nil => simp [Memory.write, Memory.read, h]
  | cons e rest ih =>
    obtain ⟨k, w⟩ := e
    simp only [Memory.write]
    split
    · simp [Memory.read, h]
    · split
      · subst_vars; simp [Memory.read, h]
      · simp only [Memory.read, ih]

theorem Memory.read_write (m : Memory) (i j : Nat) (v : Int) :
    (m.write i v).read j = if j = i then some v else m.read j := by
  split
  · subst_vars; exact Memory.read_write_same ..
  · exact Memory.read_write_other m v (by assumption)

/-- The entries after a write are the written one and old ones. -/
theorem Memory.mem_write {m : Memory} {i : Nat} {v : Int} {e : Nat × Int} (h : e ∈ m.write i v) :
    e = (i, v) ∨ e ∈ m := by
  induction m with
  | nil => simpa [Memory.write] using h
  | cons x rest ih =>
    obtain ⟨j, w⟩ := x
    simp only [Memory.write] at h
    split at h
    · simpa using h
    · split at h
      · rcases List.mem_cons.1 h with h | h
        · exact .inl h
        · exact .inr (List.mem_cons_of_mem _ h)
      · rcases List.mem_cons.1 h with h | h
        · exact .inr (h ▸ List.mem_cons_self ..)
        · rcases ih h with h | h
          · exact .inl h
          · exact .inr (List.mem_cons_of_mem _ h)

/-- A write keeps the canonical form. -/
theorem Memory.write_wf {m : Memory} (h : m.wf) (i : Nat) (v : Int) : (m.write i v).wf := by
  induction m with
  | nil => simp [Memory.write, Memory.wf]
  | cons x rest ih =>
    obtain ⟨j, w⟩ := x
    obtain ⟨hj, hr⟩ := List.pairwise_cons.1 h
    simp only [Memory.write]
    split
    · rename_i hij
      refine List.pairwise_cons.2 ⟨fun e he => ?_, h⟩
      rcases List.mem_cons.1 he with rfl | he
      · exact hij
      · exact Nat.lt_trans hij (hj e he)
    · split
      · rename_i hij
        subst hij
        exact List.pairwise_cons.2 ⟨hj, hr⟩
      · refine List.pairwise_cons.2 ⟨fun e he => ?_, ih hr⟩
        rcases Memory.mem_write he with rfl | he
        · simp only; omega
        · exact hj e he

theorem Memory.write_below {m : Memory} {bound i : Nat} (h : m.Below bound) (hi : i < bound) (v : Int) :
    (m.write i v).Below bound := by
  intro e he
  rcases Memory.mem_write he with rfl | he
  · exact hi
  · exact h e he

theorem Memory.write_loaded {m : Memory} {n : Nat} (h : m.Loaded n) (i : Nat) (v : Int) :
    (m.write i v).Loaded n := by
  intro j hj
  rw [Memory.read_write]
  split
  · rfl
  · exact h j hj

/-- A write at the index after the loaded ones loads one more. -/
theorem Memory.write_loaded_succ {m : Memory} {n : Nat} (h : m.Loaded n) (v : Int) :
    (m.write n v).Loaded (n + 1) := by
  intro j hj
  rw [Memory.read_write]
  split
  · rfl
  · exact h j (by omega)

theorem Memory.write_fits {m : Memory} {w i : Nat} {v : Int} (h : m.Fits w) (hv : Representable w v) :
    (m.write i v).Fits w := by
  intro e he
  rcases Memory.mem_write he with rfl | he
  · exact hv
  · exact h e he

/-- A cell that is read is one of the memory's. -/
theorem Memory.read_fits {m : Memory} {w i : Nat} {v : Int} (h : m.Fits w) (hr : m.read i = some v) :
    Representable w v := by
  induction m with
  | nil => simp at hr
  | cons x rest ih =>
    obtain ⟨j, u⟩ := x
    simp only [Memory.read] at hr
    split at hr
    · cases hr
      exact h (j, v) (List.mem_cons_self ..)
    · exact ih (fun e he => h e (List.mem_cons_of_mem _ he)) hr

/-! ### Consecutive writes -/

theorem Memory.writeAll_fits {m : Memory} {w : Nat} (h : m.Fits w) (i : Nat) {vs : List Int}
    (hv : ∀ v ∈ vs, Representable w v) : (m.writeAll i vs).Fits w := by
  induction vs generalizing m i with
  | nil => exact h
  | cons v rest ih =>
    exact ih (Memory.write_fits h (hv v (List.mem_cons_self ..))) (i + 1)
      fun u hu => hv u (List.mem_cons_of_mem _ hu)

theorem Memory.writeAll_wf {m : Memory} (h : m.wf) (i : Nat) (vs : List Int) : (m.writeAll i vs).wf := by
  induction vs generalizing m i with
  | nil => exact h
  | cons v rest ih => exact ih (Memory.write_wf h i v) (i + 1)

theorem Memory.writeAll_below {m : Memory} {bound i : Nat} (h : m.Below bound) (vs : List Int)
    (hi : i + vs.length ≤ bound) : (m.writeAll i vs).Below bound := by
  induction vs generalizing m i with
  | nil => exact h
  | cons v rest ih =>
    simp only [List.length_cons] at hi
    exact ih (Memory.write_below h (by omega) v) (by omega)

/-- Consecutive writes leave every index below them. -/
theorem Memory.read_writeAll_lt {m : Memory} {i j : Nat} (vs : List Int) (h : j < i) :
    (m.writeAll i vs).read j = m.read j := by
  induction vs generalizing m i with
  | nil => rfl
  | cons v rest ih =>
    exact (ih (by omega)).trans (Memory.read_write_other m v (by omega))

/-- Consecutive writes put cell `k` at index `i + k`. -/
theorem Memory.read_writeAll {m : Memory} (i : Nat) (vs : List Int) {k : Nat} (h : k < vs.length) :
    (m.writeAll i vs).read (i + k) = some vs[k] := by
  induction vs generalizing m i k with
  | nil => simp at h
  | cons v rest ih =>
    cases k with
    | zero => exact (Memory.read_writeAll_lt rest (by omega)).trans (Memory.read_write_same ..)
    | succ k =>
      have := ih (m := m.write i v) (i + 1) (k := k) (by simpa using h)
      simpa [Memory.writeAll, Nat.add_assoc, Nat.add_comm 1 k] using this

/-- The memories of the state after reset are in canonical form. -/
theorem State.reset_memories_wf : State.reset.stk.wf ∧ State.reset.imem.wf := by decide

/-! ### Reading a slice -/

theorem Memory.slice_succ {m : Memory} {i k : Nat} {cells : List Int} (h : m.slice i (k + 1) = some cells) :
    ∃ v vs, cells = v :: vs ∧ m.read i = some v ∧ m.slice (i + 1) k = some vs := by
  simp only [Memory.slice] at h
  split at h
  · rename_i v vs hv hvs
    exact ⟨v, vs, (Option.some.inj h).symm, hv, hvs⟩
  · cases h

end Sys2Proof.Machine
end

