-- ==== Sys2Proof/Laws/State.lean ====
section
/-!
SUPPORT. The state's fields after each update: one lemma per field per update, true by rfl, and the register file's
read-after-write laws. Proofs cite these and unfold no record update.
-/

namespace Sys2Proof.Machine

/-! ### The register file -/

@[simp] theorem RegFile.get_a (rf : RegFile) : rf.get .a = rf.a := rfl
@[simp] theorem RegFile.get_b (rf : RegFile) : rf.get .b = rf.b := rfl
@[simp] theorem RegFile.get_c (rf : RegFile) : rf.get .c = rf.c := rfl
@[simp] theorem RegFile.get_d (rf : RegFile) : rf.get .d = rf.d := rfl
@[simp] theorem RegFile.get_e (rf : RegFile) : rf.get .e = rf.e := rfl
@[simp] theorem RegFile.get_f (rf : RegFile) : rf.get .f = rf.f := rfl
@[simp] theorem RegFile.get_ip (rf : RegFile) : rf.get .ip = rf.ip := rfl
@[simp] theorem RegFile.get_sp (rf : RegFile) : rf.get .sp = rf.sp := rfl

@[simp] theorem RegFile.set_ip (rf : RegFile) (v : Int) : rf.set .ip v = { rf with ip := v } := rfl
@[simp] theorem RegFile.set_sp (rf : RegFile) (v : Int) : rf.set .sp v = { rf with sp := v } := rfl

/-- A register reads what was last written to it, and a write to another register leaves it. -/
theorem RegFile.get_set (rf : RegFile) (r q : Reg) (v : Int) :
    (rf.set r v).get q = if q = r then v else rf.get q := by
  cases r <;> cases q <;> rfl

/-! ### IP, SP and N -/

theorem State.ip_eq (s : State) : s.ip = s.regs.ip := rfl
theorem State.sp_eq (s : State) : s.sp = s.regs.sp := rfl
theorem State.n_eq (s : State) : s.n = (s.streamLen : Int) := rfl


/-! ### setReg -/

@[simp] theorem State.setReg_cfg (s : State) (r : Reg) (v : Int) :
    (s.setReg r v).cfg = s.cfg := rfl
@[simp] theorem State.setReg_regs (s : State) (r : Reg) (v : Int) :
    (s.setReg r v).regs = s.regs.set r v := rfl
@[simp] theorem State.setReg_stk (s : State) (r : Reg) (v : Int) :
    (s.setReg r v).stk = s.stk := rfl
@[simp] theorem State.setReg_running (s : State) (r : Reg) (v : Int) :
    (s.setReg r v).running = s.running := rfl
@[simp] theorem State.setReg_haltCause (s : State) (r : Reg) (v : Int) :
    (s.setReg r v).haltCause = s.haltCause := rfl
@[simp] theorem State.setReg_streamLen (s : State) (r : Reg) (v : Int) :
    (s.setReg r v).streamLen = s.streamLen := rfl
@[simp] theorem State.setReg_trace (s : State) (r : Reg) (v : Int) :
    (s.setReg r v).trace = s.trace := rfl
@[simp] theorem State.setReg_imem (s : State) (r : Reg) (v : Int) :
    (s.setReg r v).imem = s.imem := rfl

/-! ### advanceIp -/

@[simp] theorem State.advanceIp_cfg (s : State) (k : Nat) :
    (s.advanceIp k).cfg = s.cfg := rfl
@[simp] theorem State.advanceIp_regs (s : State) (k : Nat) :
    (s.advanceIp k).regs = s.regs.set .ip (s.regs.ip + k) := rfl
@[simp] theorem State.advanceIp_stk (s : State) (k : Nat) :
    (s.advanceIp k).stk = s.stk := rfl
@[simp] theorem State.advanceIp_running (s : State) (k : Nat) :
    (s.advanceIp k).running = s.running := rfl
@[simp] theorem State.advanceIp_haltCause (s : State) (k : Nat) :
    (s.advanceIp k).haltCause = s.haltCause := rfl
@[simp] theorem State.advanceIp_streamLen (s : State) (k : Nat) :
    (s.advanceIp k).streamLen = s.streamLen := rfl
@[simp] theorem State.advanceIp_trace (s : State) (k : Nat) :
    (s.advanceIp k).trace = s.trace := rfl
@[simp] theorem State.advanceIp_imem (s : State) (k : Nat) :
    (s.advanceIp k).imem = s.imem := rfl

/-! ### raiseSp -/

@[simp] theorem State.raiseSp_cfg (s : State) :
    (s.raiseSp).cfg = s.cfg := rfl
@[simp] theorem State.raiseSp_regs (s : State) :
    (s.raiseSp).regs = s.regs.set .sp (s.regs.sp + 1) := rfl
@[simp] theorem State.raiseSp_stk (s : State) :
    (s.raiseSp).stk = s.stk := rfl
@[simp] theorem State.raiseSp_running (s : State) :
    (s.raiseSp).running = s.running := rfl
@[simp] theorem State.raiseSp_haltCause (s : State) :
    (s.raiseSp).haltCause = s.haltCause := rfl
@[simp] theorem State.raiseSp_streamLen (s : State) :
    (s.raiseSp).streamLen = s.streamLen := rfl
@[simp] theorem State.raiseSp_trace (s : State) :
    (s.raiseSp).trace = s.trace := rfl
@[simp] theorem State.raiseSp_imem (s : State) :
    (s.raiseSp).imem = s.imem := rfl

/-! ### lowerSp -/

@[simp] theorem State.lowerSp_cfg (s : State) :
    (s.lowerSp).cfg = s.cfg := rfl
@[simp] theorem State.lowerSp_regs (s : State) :
    (s.lowerSp).regs = s.regs.set .sp (s.regs.sp - 1) := rfl
@[simp] theorem State.lowerSp_stk (s : State) :
    (s.lowerSp).stk = s.stk := rfl
@[simp] theorem State.lowerSp_running (s : State) :
    (s.lowerSp).running = s.running := rfl
@[simp] theorem State.lowerSp_haltCause (s : State) :
    (s.lowerSp).haltCause = s.haltCause := rfl
@[simp] theorem State.lowerSp_streamLen (s : State) :
    (s.lowerSp).streamLen = s.streamLen := rfl
@[simp] theorem State.lowerSp_trace (s : State) :
    (s.lowerSp).trace = s.trace := rfl
@[simp] theorem State.lowerSp_imem (s : State) :
    (s.lowerSp).imem = s.imem := rfl

/-! ### emit -/

@[simp] theorem State.emit_cfg (s : State) (r : OutRecord) :
    (s.emit r).cfg = s.cfg := rfl
@[simp] theorem State.emit_regs (s : State) (r : OutRecord) :
    (s.emit r).regs = s.regs := rfl
@[simp] theorem State.emit_stk (s : State) (r : OutRecord) :
    (s.emit r).stk = s.stk := rfl
@[simp] theorem State.emit_running (s : State) (r : OutRecord) :
    (s.emit r).running = s.running := rfl
@[simp] theorem State.emit_haltCause (s : State) (r : OutRecord) :
    (s.emit r).haltCause = s.haltCause := rfl
@[simp] theorem State.emit_streamLen (s : State) (r : OutRecord) :
    (s.emit r).streamLen = s.streamLen := rfl
@[simp] theorem State.emit_trace (s : State) (r : OutRecord) :
    (s.emit r).trace = s.trace ++ [r] := rfl
@[simp] theorem State.emit_imem (s : State) (r : OutRecord) :
    (s.emit r).imem = s.imem := rfl

/-! ### raiseHalt -/

@[simp] theorem State.raiseHalt_cfg (s : State) (c : HaltCause) :
    (s.raiseHalt c).cfg = s.cfg := rfl
@[simp] theorem State.raiseHalt_regs (s : State) (c : HaltCause) :
    (s.raiseHalt c).regs = s.regs := rfl
@[simp] theorem State.raiseHalt_stk (s : State) (c : HaltCause) :
    (s.raiseHalt c).stk = s.stk := rfl
@[simp] theorem State.raiseHalt_running (s : State) (c : HaltCause) :
    (s.raiseHalt c).running = false := rfl
@[simp] theorem State.raiseHalt_haltCause (s : State) (c : HaltCause) :
    (s.raiseHalt c).haltCause = c := rfl
@[simp] theorem State.raiseHalt_streamLen (s : State) (c : HaltCause) :
    (s.raiseHalt c).streamLen = s.streamLen := rfl
@[simp] theorem State.raiseHalt_trace (s : State) (c : HaltCause) :
    (s.raiseHalt c).trace = s.trace := rfl
@[simp] theorem State.raiseHalt_imem (s : State) (c : HaltCause) :
    (s.raiseHalt c).imem = s.imem := rfl

/-! ### haltNormal -/

@[simp] theorem State.haltNormal_cfg (s : State) :
    (s.haltNormal).cfg = s.cfg := rfl
@[simp] theorem State.haltNormal_regs (s : State) :
    (s.haltNormal).regs = s.regs := rfl
@[simp] theorem State.haltNormal_stk (s : State) :
    (s.haltNormal).stk = s.stk := rfl
@[simp] theorem State.haltNormal_running (s : State) :
    (s.haltNormal).running = false := rfl
@[simp] theorem State.haltNormal_haltCause (s : State) :
    (s.haltNormal).haltCause = .normal := rfl
@[simp] theorem State.haltNormal_streamLen (s : State) :
    (s.haltNormal).streamLen = s.streamLen := rfl
@[simp] theorem State.haltNormal_trace (s : State) :
    (s.haltNormal).trace = s.trace := rfl
@[simp] theorem State.haltNormal_imem (s : State) :
    (s.haltNormal).imem = s.imem := rfl

/-! ### applyReset -/

@[simp] theorem State.applyReset_cfg (s : State) (n : Nat) :
    (s.applyReset n).cfg = s.cfg := rfl
@[simp] theorem State.applyReset_regs (s : State) (n : Nat) :
    (s.applyReset n).regs = State.reset.regs := rfl
@[simp] theorem State.applyReset_stk (s : State) (n : Nat) :
    (s.applyReset n).stk = [] := rfl
@[simp] theorem State.applyReset_running (s : State) (n : Nat) :
    (s.applyReset n).running = true := rfl
@[simp] theorem State.applyReset_haltCause (s : State) (n : Nat) :
    (s.applyReset n).haltCause = .normal := rfl
@[simp] theorem State.applyReset_streamLen (s : State) (n : Nat) :
    (s.applyReset n).streamLen = n % 2 ^ s.cfg.cellW := rfl
@[simp] theorem State.applyReset_trace (s : State) (n : Nat) :
    (s.applyReset n).trace = [] := rfl
@[simp] theorem State.applyReset_imem (s : State) (n : Nat) :
    (s.applyReset n).imem = s.imem := rfl

/-! ### loadCells -/

@[simp] theorem State.loadCells_cfg (s : State) (cells : List Int) :
    (s.loadCells cells).cfg = s.cfg := rfl
@[simp] theorem State.loadCells_regs (s : State) (cells : List Int) :
    (s.loadCells cells).regs = s.regs := rfl
@[simp] theorem State.loadCells_stk (s : State) (cells : List Int) :
    (s.loadCells cells).stk = s.stk := rfl
@[simp] theorem State.loadCells_running (s : State) (cells : List Int) :
    (s.loadCells cells).running = s.running := rfl
@[simp] theorem State.loadCells_haltCause (s : State) (cells : List Int) :
    (s.loadCells cells).haltCause = s.haltCause := rfl
@[simp] theorem State.loadCells_streamLen (s : State) (cells : List Int) :
    (s.loadCells cells).streamLen = s.streamLen := rfl
@[simp] theorem State.loadCells_trace (s : State) (cells : List Int) :
    (s.loadCells cells).trace = s.trace := rfl
@[simp] theorem State.loadCells_imem (s : State) (cells : List Int) :
    (s.loadCells cells).imem = s.imem.writeAll 0 cells := rfl

/-! ### setStk -/

@[simp] theorem State.setStk_cfg (s : State) (m : Memory) :
    (s.setStk m).cfg = s.cfg := rfl
@[simp] theorem State.setStk_regs (s : State) (m : Memory) :
    (s.setStk m).regs = s.regs := rfl
@[simp] theorem State.setStk_stk (s : State) (m : Memory) :
    (s.setStk m).stk = m := rfl
@[simp] theorem State.setStk_running (s : State) (m : Memory) :
    (s.setStk m).running = s.running := rfl
@[simp] theorem State.setStk_haltCause (s : State) (m : Memory) :
    (s.setStk m).haltCause = s.haltCause := rfl
@[simp] theorem State.setStk_streamLen (s : State) (m : Memory) :
    (s.setStk m).streamLen = s.streamLen := rfl
@[simp] theorem State.setStk_trace (s : State) (m : Memory) :
    (s.setStk m).trace = s.trace := rfl
@[simp] theorem State.setStk_imem (s : State) (m : Memory) :
    (s.setStk m).imem = s.imem := rfl

end Sys2Proof.Machine
end

