-- ==== Sys2Proof/Laws/Ops.lean ====
section
/-!
SUPPORT. One lemma per shared operation that says once everything it can do: the stack primitives, the operands, the hazard
check, the end of an instruction, the fetch and the step. Proofs about instructions cite these and unfold no operation.
-/

namespace Sys2Proof.Machine

/-! ### The stack -/

theorem State.readStack_ok {s : State} {i : Int} {v : Int} :
    s.readStack i = .ok v ↔ (0 ≤ i ∧ i < s.cfg.stackCapacity) ∧ s.stk.read i.toNat = some v := by
  unfold State.readStack
  split
  · rename_i h
    cases hr : s.stk.read i.toNat <;> simp [h]
  · rename_i h
    simp [h]

/-- A stack read that gives no value is a stop of the model, never a halt or a refusal. -/
theorem State.readStack_error {s : State} {i : Int} {e : Stop} (h : s.readStack i = .error e) :
    ∃ f, e = .fault f := by
  unfold State.readStack at h
  split at h
  · split at h
    · cases h
    · exact ⟨_, (Except.error.inj h).symm⟩
  · exact ⟨_, (Except.error.inj h).symm⟩

theorem State.writeStack_ok {s t : State} {i : Int} {v : Int} :
    s.writeStack i v = .ok t ↔
      (0 ≤ i ∧ i < s.cfg.stackCapacity) ∧ t = s.setStk (s.stk.write i.toNat v) := by
  unfold State.writeStack
  split
  · rename_i h
    simp [h, eq_comm]
  · rename_i h
    simp [h]

theorem State.writeStack_error {s : State} {i : Int} {v : Int} {e : Stop} (h : s.writeStack i v = .error e) :
    e = .fault .stackIndexOutOfRange ∧ ¬(0 ≤ i ∧ i < s.cfg.stackCapacity) := by
  unfold State.writeStack at h
  split at h
  · cases h
  · exact ⟨(Except.error.inj h).symm, by assumption⟩

/-- The push primitive completes only below the capacity, with the value in the entry above the top. -/
theorem State.push_ok {s t : State} {v : Int} :
    s.push v = .ok t ↔
      (s.sp ≠ s.cfg.stackCapacity - 1 ∧ 0 ≤ s.sp + 1 ∧ s.sp + 1 < s.cfg.stackCapacity) ∧
        t = s.raiseSp.setStk (s.stk.write (s.sp + 1).toNat v) := by
  unfold State.push
  split
  · rename_i h
    simp [h]
  · rename_i h
    rw [State.writeStack_ok]
    simp [h]

theorem State.push_halt {s : State} {v : Int} {c : HaltCause} :
    s.push v = .error (.halt c) ↔ s.sp = s.cfg.stackCapacity - 1 ∧ c = .stackOverflow := by
  unfold State.push
  split
  · rename_i h
    simp [h, eq_comm]
  · rename_i h
    refine ⟨fun he => ?_, fun he => absurd he.1 h⟩
    cases (State.writeStack_error he).1

theorem State.push_refuse {s : State} {v : Int} {r : Refusal} : s.push v ≠ .error (.refuse r) := by
  unfold State.push
  split
  · simp
  · intro he
    cases (State.writeStack_error he).1

/-- The pop primitive completes only on a top entry that holds a value, and lowers SP alone. -/
theorem State.pop_ok {s t : State} {v : Int} :
    s.pop = .ok (v, t) ↔
      (0 ≤ s.sp ∧ s.sp < s.cfg.stackCapacity) ∧ s.stk.read s.sp.toNat = some v ∧ t = s.lowerSp := by
  unfold State.pop
  split
  · rename_i h
    simp [h]
  · rename_i h
    cases hr : s.readStack s.sp with
    | error e =>
      simp only [reduceCtorEq, false_iff]
      rintro ⟨hb, hv, -⟩
      rw [State.readStack_ok.2 ⟨hb, hv⟩] at hr
      cases hr
    | ok w =>
      obtain ⟨hb, hv⟩ := State.readStack_ok.1 hr
      simp [hb, hv, eq_comm]

theorem State.pop_halt {s : State} {c : HaltCause} :
    s.pop = .error (.halt c) ↔ s.sp = -1 ∧ c = .stackUnderflow := by
  unfold State.pop
  split
  · rename_i h
    simp [h, eq_comm]
  · rename_i h
    cases hr : s.readStack s.sp with
    | error e =>
      obtain ⟨f, rfl⟩ := State.readStack_error hr
      simp [h]
    | ok w => simp [h]

theorem State.pop_refuse {s : State} {r : Refusal} : s.pop ≠ .error (.refuse r) := by
  unfold State.pop
  split
  · simp
  · cases hr : s.readStack s.sp with
    | error e =>
      obtain ⟨f, rfl⟩ := State.readStack_error hr
      simp
    | ok w => simp

/-! ### The operands and the hazard check -/

theorem State.requireOperandCell_ok {s : State} {u : Unit} :
    s.requireOperandCell = .ok u ↔ s.ip + 1 < s.n := by
  unfold State.requireOperandCell
  split <;> simp <;> omega

theorem State.requireOperandCell_error {s : State} {e : Stop} :
    s.requireOperandCell = .error e ↔ s.n ≤ s.ip + 1 ∧ e = .halt .missingHalt := by
  unfold State.requireOperandCell
  split
  · rename_i h
    simp [show s.n ≤ s.ip + 1 from h, eq_comm]
  · rename_i h
    have : ¬ s.n ≤ s.ip + 1 := h
    simp [this]

theorem State.binaryOperands_ok {s : State} {a b : Int} :
    s.binaryOperands = .ok (a, b) ↔
      (1 ≤ s.sp ∧ s.sp < s.cfg.stackCapacity) ∧ s.stk.read s.sp.toNat = some a ∧
        s.stk.read (s.sp - 1).toNat = some b := by
  unfold State.binaryOperands
  split
  · rename_i h
    simp only [reduceCtorEq, false_iff]
    rintro ⟨⟨h1, -⟩, -⟩
    omega
  · rename_i h
    cases ha : s.readStack s.sp with
    | error e =>
      simp only [reduceCtorEq, false_iff]
      rintro ⟨hb, hv, -⟩
      rw [State.readStack_ok.2 ⟨⟨by omega, hb.2⟩, hv⟩] at ha
      cases ha
    | ok x =>
      obtain ⟨hx, hxv⟩ := State.readStack_ok.1 ha
      cases hb : s.readStack (s.sp - 1) with
      | error e =>
        simp only [reduceCtorEq, false_iff]
        rintro ⟨hr, -, hv⟩
        rw [State.readStack_ok.2 ⟨⟨by omega, by omega⟩, hv⟩] at hb
        cases hb
      | ok y =>
        obtain ⟨hy, hyv⟩ := State.readStack_ok.1 hb
        simp only [Except.ok.injEq, Prod.mk.injEq, hxv, hyv, Option.some.injEq]
        exact ⟨fun hh => ⟨⟨by omega, hx.2⟩, hh⟩, fun hh => hh.2⟩

theorem State.binaryOperands_halt {s : State} {c : HaltCause} :
    s.binaryOperands = .error (.halt c) ↔ s.sp < 1 ∧ c = .stackUnderflow := by
  unfold State.binaryOperands
  split
  · rename_i h
    simp [h, eq_comm]
  · rename_i h
    cases ha : s.readStack s.sp with
    | error e =>
      obtain ⟨f, rfl⟩ := State.readStack_error ha
      simp [h]
    | ok x =>
      cases hb : s.readStack (s.sp - 1) with
      | error e =>
        obtain ⟨f, rfl⟩ := State.readStack_error hb
        simp [h]
      | ok y => simp [h]

theorem State.binaryOperands_refuse {s : State} {r : Refusal} : s.binaryOperands ≠ .error (.refuse r) := by
  unfold State.binaryOperands
  split
  · simp
  · cases ha : s.readStack s.sp with
    | error e =>
      obtain ⟨f, rfl⟩ := State.readStack_error ha
      simp
    | ok x =>
      cases hb : s.readStack (s.sp - 1) with
      | error e =>
        obtain ⟨f, rfl⟩ := State.readStack_error hb
        simp
      | ok y => simp

/-- An operand pair is refused by its band: under REFUSE only (R128). -/
abbrev bandRefused (cfg : Config) (op : ArithOp) (b a : Int) : Prop :=
  cfg.ovfBands = .refuseBands ∧ op.inBand cfg.cellW b a = true

theorem checkHazard_ok {cfg : Config} {op : ArithOp} {b a : Int} {u : Unit} :
    checkHazard cfg op b a = .ok u ↔ ¬ bandRefused cfg op b a ∧ op.hazard cfg.cellW b a = none := by
  unfold checkHazard
  split
  · rename_i h
    simp [bandRefused, h]
  · rename_i h
    cases hz : op.hazard cfg.cellW b a <;> simp [bandRefused, h]

theorem checkHazard_halt {cfg : Config} {op : ArithOp} {b a : Int} {c : HaltCause} :
    checkHazard cfg op b a = .error (.halt c) ↔ ¬ bandRefused cfg op b a ∧ op.hazard cfg.cellW b a = some c := by
  unfold checkHazard
  split
  · rename_i h
    simp [bandRefused, h]
  · rename_i h
    cases hz : op.hazard cfg.cellW b a <;> simp [bandRefused, h]

theorem checkHazard_refuse {cfg : Config} {op : ArithOp} {b a : Int} {r : Refusal} :
    checkHazard cfg op b a = .error (.refuse r) ↔ bandRefused cfg op b a ∧ r = .overflowBand op := by
  unfold checkHazard
  split
  · rename_i h
    simp [bandRefused, h, eq_comm]
  · rename_i h
    cases hz : op.hazard cfg.cellW b a <;> simp [bandRefused, h]

theorem checkHazard_fault {cfg : Config} {op : ArithOp} {b a : Int} {f : Fault} :
    checkHazard cfg op b a ≠ .error (.fault f) := by
  unfold checkHazard
  split
  · simp
  · cases hz : op.hazard cfg.cellW b a <;> simp

/-! ### The effects of the instructions -/

/-- PSH completes exactly so. -/
theorem pshEffect_ok {imm : Int} {s t : State} :
    pshEffect imm s = .ok t ↔
      s.ip + 1 < s.n ∧ (s.sp ≠ s.cfg.stackCapacity - 1 ∧ 0 ≤ s.sp + 1 ∧ s.sp + 1 < s.cfg.stackCapacity) ∧
        t = (s.raiseSp.setStk (s.stk.write (s.sp + 1).toNat imm)).advanceIp 2 := by
  unfold pshEffect
  cases hr : s.requireOperandCell with
  | error e =>
    have := (State.requireOperandCell_error.1 hr).1
    simp only [reduceCtorEq, false_iff]
    rintro ⟨h, -⟩
    omega
  | ok u =>
    have := State.requireOperandCell_ok.1 hr
    cases hp : s.push imm with
    | error e =>
      simp only [reduceCtorEq, false_iff]
      rintro ⟨-, hb, -⟩
      rw [State.push_ok.2 ⟨hb, rfl⟩] at hp
      cases hp
    | ok w =>
      obtain ⟨hb, rfl⟩ := State.push_ok.1 hp
      simp only [Except.ok.injEq]
      exact ⟨fun h => ⟨this, hb, h.symm⟩, fun h => h.2.2.symm⟩

theorem pshEffect_halt {imm : Int} {s : State} {c : HaltCause} :
    pshEffect imm s = .error (.halt c) ↔
      (s.n ≤ s.ip + 1 ∧ c = .missingHalt) ∨
        (s.ip + 1 < s.n ∧ s.sp = s.cfg.stackCapacity - 1 ∧ c = .stackOverflow) := by
  unfold pshEffect
  cases hr : s.requireOperandCell with
  | error e =>
    obtain ⟨h, rfl⟩ := State.requireOperandCell_error.1 hr
    simp [h, eq_comm, show ¬ s.ip + 1 < s.n by omega]
  | ok u =>
    have := State.requireOperandCell_ok.1 hr
    cases hp : s.push imm with
    | error e =>
      simp only [Except.error.injEq]
      constructor
      · rintro rfl
        exact .inr ⟨this, State.push_halt.1 hp⟩
      · rintro (⟨h, -⟩ | ⟨-, h⟩)
        · omega
        · rw [State.push_halt.2 h] at hp
          exact (Except.error.inj hp).symm
    | ok w =>
      obtain ⟨hb, -⟩ := State.push_ok.1 hp
      simp only [reduceCtorEq, false_iff]
      rintro (⟨h, -⟩ | ⟨-, h, -⟩)
      · omega
      · exact hb.1 h

/-- POP completes exactly so. -/
theorem popEffect_ok {s t : State} :
    popEffect s = .ok t ↔
      ∃ v, ((0 ≤ s.sp ∧ s.sp < s.cfg.stackCapacity) ∧ s.stk.read s.sp.toNat = some v) ∧
        t = (s.lowerSp.emit (.popped v)).advanceIp 1 := by
  unfold popEffect
  cases hp : s.pop with
  | error e =>
    simp only [reduceCtorEq, false_iff]
    rintro ⟨v, ⟨hb, hv⟩, -⟩
    rw [State.pop_ok.2 ⟨hb, hv, rfl⟩] at hp
    cases hp
  | ok w =>
    obtain ⟨v, u⟩ := w
    obtain ⟨hb, hv, rfl⟩ := State.pop_ok.1 hp
    simp only [Except.ok.injEq, hv, Option.some.injEq]
    exact ⟨fun h => ⟨v, ⟨hb, rfl⟩, h.symm⟩, fun ⟨_, ⟨_, h1⟩, h2⟩ => by subst h1; exact h2.symm⟩

theorem popEffect_halt {s : State} {c : HaltCause} :
    popEffect s = .error (.halt c) ↔ s.sp = -1 ∧ c = .stackUnderflow := by
  unfold popEffect
  cases hp : s.pop with
  | error e =>
    simp only [Except.error.injEq]
    rw [← State.pop_halt, hp, Except.error.injEq]
  | ok w =>
    obtain ⟨v, u⟩ := w
    simp only [reduceCtorEq, false_iff]
    intro h
    rw [State.pop_halt.2 h] at hp
    cases hp

/-- The state an arithmetic instruction leaves when it completes (R110). -/
abbrev committed (op : ArithOp) (b a r : Int) (s : State) : State :=
  ((s.lowerSp.setStk (s.stk.write (s.sp - 1).toNat r)).emit (.computed op b a r)).advanceIp 1

/-- A binary operation completes exactly so. -/
theorem binaryEffect_ok {op : ArithOp} {s t : State} :
    binaryEffect op s = .ok t ↔
      ∃ a b, ((1 ≤ s.sp ∧ s.sp < s.cfg.stackCapacity) ∧ s.stk.read s.sp.toNat = some a ∧
          s.stk.read (s.sp - 1).toNat = some b) ∧
        (¬ bandRefused s.cfg op b a ∧ op.hazard s.cfg.cellW b a = none) ∧
        t = committed op b a (op.result b a) s := by
  unfold binaryEffect
  cases ho : s.binaryOperands with
  | error e =>
    simp only [reduceCtorEq, false_iff]
    rintro ⟨a, b, h, -⟩
    rw [State.binaryOperands_ok.2 h] at ho
    cases ho
  | ok w =>
    obtain ⟨a, b⟩ := w
    have hab := State.binaryOperands_ok.1 ho
    have inj : ∀ {a' b' : Int}, s.stk.read s.sp.toNat = some a' → s.stk.read (s.sp - 1).toNat = some b' →
        a' = a ∧ b' = b := fun h1 h2 =>
      ⟨Option.some.inj (h1.symm.trans hab.2.1), Option.some.inj (h2.symm.trans hab.2.2)⟩
    cases hz : checkHazard s.cfg op b a with
    | error e =>
      simp only [hz, reduceCtorEq, false_iff]
      rintro ⟨a', b', ⟨-, h1, h2⟩, h, -⟩
      obtain ⟨rfl, rfl⟩ := inj h1 h2
      rw [checkHazard_ok (u := ()) |>.2 h] at hz
      cases hz
    | ok u =>
      have hok := checkHazard_ok.1 hz
      have hw : s.lowerSp.writeStack (s.sp - 1) (op.result b a) =
          .ok (s.lowerSp.setStk (s.stk.write (s.sp - 1).toNat (op.result b a))) :=
        State.writeStack_ok.2 ⟨⟨by omega, by simp only [State.lowerSp_cfg]; omega⟩, rfl⟩
      simp only [hz, commitBinary, hw, Except.ok.injEq]
      refine ⟨fun h => ⟨a, b, hab, hok, h.symm⟩, ?_⟩
      rintro ⟨a', b', ⟨-, h1, h2⟩, -, h⟩
      obtain ⟨rfl, rfl⟩ := inj h1 h2
      exact h.symm

theorem binaryEffect_halt {op : ArithOp} {s : State} {c : HaltCause} :
    binaryEffect op s = .error (.halt c) ↔
      (s.sp < 1 ∧ c = .stackUnderflow) ∨
        ∃ a b, ((1 ≤ s.sp ∧ s.sp < s.cfg.stackCapacity) ∧ s.stk.read s.sp.toNat = some a ∧
            s.stk.read (s.sp - 1).toNat = some b) ∧
          (¬ bandRefused s.cfg op b a ∧ op.hazard s.cfg.cellW b a = some c) := by
  unfold binaryEffect
  cases ho : s.binaryOperands with
  | error e =>
    simp only [Except.error.injEq]
    constructor
    · rintro rfl
      exact .inl (State.binaryOperands_halt.1 ho)
    · rintro (h | ⟨a, b, h, -⟩)
      · rw [State.binaryOperands_halt.2 h] at ho
        exact (Except.error.inj ho).symm
      · rw [State.binaryOperands_ok.2 h] at ho
        cases ho
  | ok w =>
    obtain ⟨a, b⟩ := w
    have hab := State.binaryOperands_ok.1 ho
    have hno : ¬ s.sp < 1 := by omega
    simp only [hno, false_and, false_or]
    have key : (∃ a' b', ((1 ≤ s.sp ∧ s.sp < s.cfg.stackCapacity) ∧ s.stk.read s.sp.toNat = some a' ∧
            s.stk.read (s.sp - 1).toNat = some b') ∧
          (¬ bandRefused s.cfg op b' a' ∧ op.hazard s.cfg.cellW b' a' = some c)) ↔
        checkHazard s.cfg op b a = .error (.halt c) := by
      rw [checkHazard_halt]
      refine ⟨?_, fun h => ⟨a, b, hab, h⟩⟩
      rintro ⟨a', b', ⟨-, h1, h2⟩, h⟩
      cases Option.some.inj (h1.symm.trans hab.2.1)
      cases Option.some.inj (h2.symm.trans hab.2.2)
      exact h
    rw [key]
    cases hz : checkHazard s.cfg op b a with
    | error e => simp
    | ok u =>
      have hw : s.lowerSp.writeStack (s.sp - 1) (op.result b a) =
          .ok (s.lowerSp.setStk (s.stk.write (s.sp - 1).toNat (op.result b a))) :=
        State.writeStack_ok.2 ⟨⟨by omega, by simp only [State.lowerSp_cfg]; omega⟩, rfl⟩
      simp [commitBinary, hw]

theorem binaryEffect_refuse {op : ArithOp} {s : State} {r : Refusal} :
    binaryEffect op s = .error (.refuse r) ↔
      ∃ a b, ((1 ≤ s.sp ∧ s.sp < s.cfg.stackCapacity) ∧ s.stk.read s.sp.toNat = some a ∧
          s.stk.read (s.sp - 1).toNat = some b) ∧
        bandRefused s.cfg op b a ∧ r = .overflowBand op := by
  unfold binaryEffect
  cases ho : s.binaryOperands with
  | error e =>
    simp only [Except.error.injEq]
    constructor
    · rintro rfl
      exact absurd ho State.binaryOperands_refuse
    · rintro ⟨a, b, h, -⟩
      rw [State.binaryOperands_ok.2 h] at ho
      cases ho
  | ok w =>
    obtain ⟨a, b⟩ := w
    have hab := State.binaryOperands_ok.1 ho
    have key : (∃ a' b', ((1 ≤ s.sp ∧ s.sp < s.cfg.stackCapacity) ∧ s.stk.read s.sp.toNat = some a' ∧
            s.stk.read (s.sp - 1).toNat = some b') ∧
          bandRefused s.cfg op b' a' ∧ r = .overflowBand op) ↔
        checkHazard s.cfg op b a = .error (.refuse r) := by
      rw [checkHazard_refuse]
      refine ⟨?_, fun h => ⟨a, b, hab, h⟩⟩
      rintro ⟨a', b', ⟨-, h1, h2⟩, h⟩
      cases Option.some.inj (h1.symm.trans hab.2.1)
      cases Option.some.inj (h2.symm.trans hab.2.2)
      exact h
    rw [key]
    cases hz : checkHazard s.cfg op b a with
    | error e => simp [hz]
    | ok u =>
      have hw : s.lowerSp.writeStack (s.sp - 1) (op.result b a) =
          .ok (s.lowerSp.setStk (s.stk.write (s.sp - 1).toNat (op.result b a))) :=
        State.writeStack_ok.2 ⟨⟨by omega, by simp only [State.lowerSp_cfg]; omega⟩, rfl⟩
      simp [hz, commitBinary, hw]

/-! ### The end of an instruction -/

/-- What an instruction does, before its end is concluded: a view of `exec` for proofs. -/
def effect (i : Instr) (s : State) : Except Stop State :=
  match i with
  | .psh imm => pshEffect imm s
  | .pop => popEffect s
  | .add => binaryEffect .add s
  | .sub => binaryEffect .sub s
  | .mul => binaryEffect .mul s
  | .div => binaryEffect .div s
  | .set => .error (.halt .unimplementedOpcode)
  | .hlt => .error (.halt .normal)

theorem exec_eq (i : Instr) (s : State) : exec i s = conclude s (effect i s) := by
  cases i <;> rfl

theorem conclude_next {s t : State} {r : Except Stop State} :
    conclude s r = .next t ↔ r = .ok t ∨ ∃ c, r = .error (.halt c) ∧ t = s.raiseHalt c := by
  rcases r with (c | f | q) | u <;> simp [conclude, eq_comm]

theorem conclude_fault {s : State} {r : Except Stop State} {f : Fault} :
    conclude s r = .fault f ↔ r = .error (.fault f) := by
  rcases r with (c | f | q) | u <;> simp [conclude]

theorem conclude_refused {s : State} {r : Except Stop State} {q : Refusal} :
    conclude s r = .refused q ↔ r = .error (.refuse q) := by
  rcases r with (c | f | q) | u <;> simp [conclude]

/-- An instruction that answers a next state has completed, or has halted with every other part of the state as it was. -/
theorem exec_next {i : Instr} {s t : State} :
    exec i s = .next t ↔ effect i s = .ok t ∨ ∃ c, effect i s = .error (.halt c) ∧ t = s.raiseHalt c := by
  rw [exec_eq, conclude_next]

/-! ### The fetch and the step -/

theorem State.pastEnd_iff {s : State} : s.pastEnd = true ↔ ¬(0 ≤ s.ip ∧ s.ip < s.n) := by
  simp only [State.pastEnd, decide_eq_true_eq]

/-- Where the fetch finds an instruction, all its cells lie inside the stream and its opcode cell selects it. -/
theorem State.fetch_instr {s : State} {i : Instr} (h : s.fetch = .instr i) :
    (0 ≤ s.ip ∧ s.ip + i.opcode.length ≤ s.n) ∧
      ∃ v, s.imem.read s.ip.toNat = some v ∧ decodeOpcode s.cfg.opcodes v = some i.opcode := by
  unfold State.fetch State.fetchCells at h
  split at h
  · cases h
  · rename_i cells hc
    split at hc
    · cases hc
      simp [decode] at h
    · rename_i hp
      rw [State.pastEnd_iff, not_not] at hp
      unfold State.memRead at hc
      cases hv : s.imem.read s.ip.toNat with
      | none => simp [hv] at hc
      | some v =>
        simp only [hv] at hc
        split at hc
        · rename_i hpsh
          cases hw : s.imem.read (s.ip + 1).toNat with
          | none => simp [hw] at hc
          | some w =>
            simp only [hw, Except.ok.injEq] at hc
            subst hc
            simp only [decode, hpsh.1] at h
            cases h
            exact ⟨⟨hp.1, by simp only [Instr.opcode, Opcode.length]; omega⟩, v, rfl, hpsh.1⟩
        · rename_i hpsh
          cases hc
          cases hd : decodeOpcode s.cfg.opcodes v with
          | none => simp [decode, hd] at h
          | some op =>
            cases op <;> simp only [decode, hd] at h <;> cases h <;>
              exact ⟨⟨hp.1, by simp only [Instr.opcode, Opcode.length]; omega⟩, v, rfl, hd⟩

/-- Where the fetch halts, the cause is MissingHalt or UnknownOpcode. -/
theorem State.fetch_halt {s : State} {c : HaltCause} (h : s.fetch = .halt c) :
    c = .missingHalt ∨ c = .unknownOpcode := by
  unfold State.fetch at h
  split at h
  · cases h
  · split at h <;> simp_all

/-- What a step that answers a next state has done. -/
theorem step_next {s t : State} :
    step s = .next t ↔
      (s.running = false ∧ t = s) ∨
        (s.running = true ∧ s.n ≤ s.cfg.imemDepth ∧
          ((∃ i, s.fetch = .instr i ∧ exec i s = .next t) ∨ ∃ c, s.fetch = .halt c ∧ t = s.raiseHalt c)) := by
  unfold step
  cases hr : s.running with
  | false => simp [eq_comm]
  | true =>
    simp only [if_true]
    split
    · rename_i hn
      cases hf : s.fetch <;> simp [hn, eq_comm]
    · rename_i hn
      simp [hn]

end Sys2Proof.Machine
end

