-- ==== Sys2Proof/Laws/PerInstr.lean ====
section
/-!
SUPPORT. Statements made of every instruction as syntax, one lemma per constructor.
-/

namespace Sys2Proof.Laws.EncodeLength

/-- An instruction's encoding has the length its opcode cell alone tells, and starts with that cell (30_encoding.md R61, R62,
R67). -/
def Statement (i : Instr) : Prop :=
  ∀ m : OpcodeMap, (encode m i).length = i.opcode.length ∧ (encode m i).head? = some (m.value i.opcode)

theorem psh (imm : Int) : Statement (.psh imm) := fun _ => ⟨rfl, rfl⟩
theorem pop : Statement .pop := fun _ => ⟨rfl, rfl⟩
theorem add : Statement .add := fun _ => ⟨rfl, rfl⟩
theorem sub : Statement .sub := fun _ => ⟨rfl, rfl⟩
theorem mul : Statement .mul := fun _ => ⟨rfl, rfl⟩
theorem div : Statement .div := fun _ => ⟨rfl, rfl⟩
theorem set : Statement .set := fun _ => ⟨rfl, rfl⟩
theorem hlt : Statement .hlt := fun _ => ⟨rfl, rfl⟩

end Sys2Proof.Laws.EncodeLength
end

