-- ==== Sys2Proof/Laws/Run.lean ====
section
/-!
SUPPORT. Runs of many steps: one step at a time, and the agreement with the host's own run.
-/

namespace Sys2Proof.Machine

theorem runSteps_succ {s t : State} (k : Nat) (h : step s = .next t) : runSteps (k + 1) s = runSteps k t := by
  simp only [runSteps, h]

theorem core_run_next (M : Host.Core) (k : Nat) {s t : M.State} (h : M.step s = .next t) :
    M.run (k + 1) s = M.run k t := by
  simp only [Host.Core.run, h]

theorem core_run_fault (M : Host.Core) (k : Nat) {s : M.State} {r : M.Fault} (h : M.step s = .fault r) :
    M.run (k + 1) s = .fault r := by
  simp only [Host.Core.run, h]

theorem core_run_refused (M : Host.Core) (k : Nat) {s : M.State} {r : M.Refusal} (h : M.step s = .refused r) :
    M.run (k + 1) s = .refused r := by
  simp only [Host.Core.run, h]

/-- A run of this machine is the host's run of `Sys2Proof.core`. -/
theorem runSteps_eq_core_run (k : Nat) (s : State) : runSteps k s = Sys2Proof.core.run k s := by
  induction k generalizing s with
  | zero => rfl
  | succ k ih =>
    cases h : step s with
    | next t => exact (runSteps_succ k h).trans ((ih t).trans (core_run_next Sys2Proof.core k h).symm)
    | fault r =>
      have : runSteps (k + 1) s = .fault r := by simp only [runSteps, h]
      exact this.trans (core_run_fault Sys2Proof.core k h).symm
    | refused r =>
      have : runSteps (k + 1) s = .refused r := by simp only [runSteps, h]
      exact this.trans (core_run_refused Sys2Proof.core k h).symm

end Sys2Proof.Machine
end

