-- ==== Sys2Proof/Tests/Slice0.lean ====
section
/-!
SUPPORT. Tests with expected results from the spec's tables and vectors (95_test_vectors.md), and for every statement with
hypotheses a concrete state that meets them, at the boundaries of each clause.
-/

namespace Sys2Proof.Tests

open Sys2Proof Sys2Proof.Machine

/-! ### Well-formedness: each check refuses an ill-formed term -/

theorem test_wf_reference : Config.reference.wellFormed = true := by decide
theorem test_wf_map_not_injective : OpcodeMap.wellFormed { OpcodeMap.standard with hlt := 0 } 32 = false := by decide
theorem test_wf_sentinel_not_injective : OpcodeMap.wellFormed { OpcodeMap.standard with unknown := 7 } 32 = false := by
  decide
theorem test_wf_map_negative : OpcodeMap.wellFormed { OpcodeMap.standard with set := -1 } 32 = false := by decide
theorem test_wf_map_at_max : OpcodeMap.wellFormed { OpcodeMap.standard with set := 127 } 8 = true := by decide
theorem test_wf_map_over_max : OpcodeMap.wellFormed { OpcodeMap.standard with set := 128 } 8 = false := by decide
theorem test_wf_width : Config.wellFormed { Config.reference with cellW := 7, stackCapacity := 1, imemDepth := 1 } = false ∧
    Config.wellFormed { Config.reference with cellW := 8, stackCapacity := 1, imemDepth := 1 } = true := by decide
theorem test_wf_no_capacity : Config.wellFormed { Config.reference with stackCapacity := 0 } = false := by decide
theorem test_wf_capacity_top : Config.wellFormed { Config.reference with stackCapacity := 2147483648 } = true := by decide
theorem test_wf_capacity_over : Config.wellFormed { Config.reference with stackCapacity := 2147483649 } = false := by decide
theorem test_wf_no_depth : Config.wellFormed { Config.reference with imemDepth := 0 } = false := by decide
theorem test_wf_depth_over : Config.wellFormed { Config.reference with imemDepth := 2147483648 } = false := by decide
theorem test_wf_bad_map :
    Config.wellFormed { Config.reference with opcodes := { OpcodeMap.standard with pop := 0 } } = false := by decide
theorem test_wf_instr : (Instr.psh (-2147483648)).wellFormed 32 = true ∧ (Instr.psh 2147483648).wellFormed 32 = false := by
  decide

/-! ### Decoding: words from R63's table and the vectors V-D1 to V-D7 -/

theorem test_decode_psh : decodeWords OpcodeMap.standard [0x00000000#32, 0xFFFFFFFF#32, 7#32] = .instr (.psh (-1)) [7] := by
  decide
theorem test_decode_pop : decodeWords OpcodeMap.standard [0x00000001#32] = .instr .pop [] := by decide
theorem test_decode_add : decodeWords OpcodeMap.standard [0x00000002#32] = .instr .add [] := by decide
theorem test_decode_sub : decodeWords OpcodeMap.standard [0x00000003#32] = .instr .sub [] := by decide
theorem test_decode_mul : decodeWords OpcodeMap.standard [0x00000004#32] = .instr .mul [] := by decide
theorem test_decode_div : decodeWords OpcodeMap.standard [0x00000005#32] = .instr .div [] := by decide
theorem test_decode_set : decodeWords OpcodeMap.standard [0x00000006#32] = .instr .set [] := by decide
theorem test_decode_hlt : decodeWords OpcodeMap.standard [0x00000007#32] = .instr .hlt [] := by decide
theorem test_decode_sentinel : decodeWords OpcodeMap.standard [0x00000008#32] = .unknownOpcode 8 := by decide
theorem test_decode_negative : decodeWords OpcodeMap.standard [0xFFFFFFFF#32] = .unknownOpcode (-1) := by decide
theorem test_decode_whole_cell : decodeWords OpcodeMap.standard [0x00000102#32] = .unknownOpcode 258 := by decide
theorem test_decode_top_bit : decodeWords OpcodeMap.standard [0x80000007#32] = .unknownOpcode (-2147483641) := by decide
theorem test_decode_truncated : decodeWords OpcodeMap.standard [0x00000000#32] = .operandMissing := by decide
theorem test_decode_end : decodeWords (w := 32) OpcodeMap.standard [] = .streamEnd := by decide
theorem test_encode_psh : encodeWords 32 OpcodeMap.standard (.psh (-2)) = [0x00000000#32, 0xFFFFFFFE#32] := by decide
theorem test_encode_all :
    encodeAll OpcodeMap.standard [.pop, .add, .sub, .mul, .div, .set, .hlt] = [1, 2, 3, 4, 5, 6, 7] := by decide
/-- V-D6's stream, decoded ahead (R75). -/
theorem test_predecode : predecode OpcodeMap.standard 0 [0, 9, 99, 7] = [.instr 0 (.psh 9), .unknown 2 99] := by decide
theorem test_predecode_truncated : predecode OpcodeMap.standard 0 [1, 0] = [.instr 0 .pop, .pshTruncated 1] := by decide
theorem test_table_word_pop : decodeTableWord 32 1 = some .pop := by decide
theorem test_table_word_psh : decodeTableWord 64 0x0000002A00000000 = some (.psh 42) := by decide
theorem test_table_word_psh_short : decodeTableWord 32 0 = some (.psh 0) := by decide
theorem test_table_word_none : decodeTableWord 32 9 = none := by decide
/-- Little-endian bytes of a cell (R45). -/
theorem test_cell_bytes : cellBytes 32 0x0A0B0C0D = [0x0D, 0x0C, 0x0B, 0x0A] := by decide
theorem test_cells_of_bytes :
    cellsOfBytes 32 2 [0xFE, 0xFF, 0xFF, 0xFF, 0x07, 0x00, 0x00, 0x00] = [-2, 7] := by decide

/-! ### Small machines -/

/-- The parameters of the reference instance with a small stack and instruction memory. -/
def smallConfig (capacity : Nat) : Config := { Config.reference with stackCapacity := capacity, imemDepth := 16 }

/-- A running machine with the given stream, IP and stack, bottom first. -/
def machine (cfg : Config) (cells : List Int) (ip : Nat) (stack : List Int) : State :=
  { State.reset with
    cfg := cfg
    imem := Memory.writeAll [] 0 cells
    streamLen := cells.length
    stk := Memory.writeAll [] 0 stack
    regs := { State.reset.regs with ip := ip, sp := stack.length - 1 } }

/-- A machine of capacity 4 at a one-cell instruction, with `b` and `a` on its stack. -/
def binary (opcode b a : Int) : State := machine (smallConfig 4) [opcode, 7] 0 [b, a]

/-- The same with `OVF_BAND_POLICY = REFUSE`. -/
def binaryRefusing (opcode b a : Int) : State :=
  machine { smallConfig 4 with ovfBands := .refuseBands } [opcode, 7] 0 [b, a]

/-- A view of the next state of an outcome. -/
def after {α : Type} (view : State → α) : Host.Outcome State Fault Refusal → Option α
  | .next t => some (view t)
  | .fault _ => none
  | .refused _ => none

/-- The halt cause of a state, if it has halted. -/
def halted (s : State) : Option HaltCause := if s.running then none else some s.haltCause

/-- IP and the live stack, bottom first. -/
def place (s : State) : Int × List (Option Int) := (s.ip, s.liveStack)

/-! ### The instructions: one step each, from the vectors of L2 and L3 -/

/-- V-S1, from the spec's example. -/
theorem test_psh_step :
    after place (step (machine (smallConfig 4) [0, 42, 7] 0 [])) = some (2, [some 42]) := by decide
/-- V-S6 and V-S8: at a full stack; and MissingHalt comes first. -/
theorem test_psh_halts :
    after halted (step (machine (smallConfig 1) [0, 6] 0 [5])) = some (some .stackOverflow) ∧
      after halted (step (machine (smallConfig 1) [0] 0 [5])) = some (some .missingHalt) := by decide
/-- V-S11: the whole signed cell is emitted. -/
theorem test_pop_step :
    after State.trace (step (machine (smallConfig 4) [1, 7] 0 [-2147483648])) =
      some [.popped (-2147483648)] := by decide
/-- V-S10. -/
theorem test_pop_underflow :
    after halted (step (machine (smallConfig 4) [1] 0 [])) = some (some .stackUnderflow) := by decide
/-- V-A6. -/
theorem test_add_step : after State.trace (step (binary 2 2147483647 (-2147483648))) =
    some [.computed .add 2147483647 (-2147483648) (-1)] := by decide
/-- V-A2: the halt is precise. -/
theorem test_add_overflow : after place (step (binary 2 2147483647 1)) = some (0, [some 2147483647, some 1]) ∧
    after halted (step (binary 2 2147483647 1)) = some (some .arithmeticOverflow) := by decide
/-- V-B2: operand order. -/
theorem test_sub_step : after State.trace (step (binary 3 3 10)) = some [.computed .sub 3 10 (-7)] := by decide
/-- V-B8 and V-B6: the bands under EXACT. -/
theorem test_sub_bands : after place (step (binary 3 (-1) 2147483647)) = some (1, [some (-2147483648)]) ∧
    after halted (step (binary 3 0 (-2147483648))) = some (some .arithmeticOverflow) := by decide
/-- V-M7: the band `b * a = MIN` under EXACT. -/
theorem test_mul_step : after place (step (binary 4 (-65536) 32768)) = some (1, [some (-2147483648)]) := by decide
/-- V-M4 and V-M5. -/
theorem test_mul_edges : after place (step (binary 4 46340 46340)) = some (1, [some 2147395600]) ∧
    after halted (step (binary 4 46341 46341)) = some (some .arithmeticOverflow) := by decide
/-- V-V2 and V-V3: the quotient rounds toward zero. -/
theorem test_div_step : after State.trace (step (binary 5 (-7) 2)) = some [.computed .div (-7) 2 (-3)] ∧
    after State.trace (step (binary 5 7 (-2))) = some [.computed .div 7 (-2) (-3)] := by decide
/-- V-V10, V-V11 and V-V17. -/
theorem test_div_halts : after halted (step (binary 5 (-2147483648) 0)) = some (some .divisionByZero) ∧
    after halted (step (binary 5 (-2147483648) (-1))) = some (some .arithmeticOverflow) ∧
    after halted (step (machine (smallConfig 4) [5] 0 [0])) = some (some .stackUnderflow) := by decide
/-- V-Y2: the halting instruction's IP and the stack stay. -/
theorem test_set_step :
    after place (step (machine (smallConfig 4) [0, 1, 0, 2, 6] 4 [1, 2])) = some (4, [some 1, some 2]) := by decide
theorem test_set_cause : after halted (step (machine (smallConfig 4) [6] 0 [])) = some (some .unimplementedOpcode) := by
  decide
/-- V-Y4: a normal halt with a stack that is not empty. -/
theorem test_hlt_step : after place (step (machine (smallConfig 4) [0, 1, 7] 2 [1])) = some (2, [some 1]) := by decide
theorem test_hlt_cause : after halted (step (machine (smallConfig 4) [7, 99] 0 [])) = some (some .normal) := by decide

/-! ### The cycle, reset and the bands -/

/-- V-D4, V-D2. -/
theorem test_unknown_halts : after halted (step (machine (smallConfig 4) [258] 0 [])) = some (some .unknownOpcode) ∧
    after halted (step (machine (smallConfig 4) [8] 0 [])) = some (some .unknownOpcode) := by decide
/-- V-D1. -/
theorem test_reset_step : after halted (step State.reset) = some (some .missingHalt) := by decide
/-- V-B13. -/
theorem test_refuse_band : step (binaryRefusing 3 (-1) 2147483647) = .refused (.overflowBand .sub) := rfl
theorem test_fetch_word : after place (step (State.reset.withFetchWord 64 0x0000002A00000000)) = some (2, [some 42]) := by
  decide
/-- The same instructions at `CELL_W = 8`: `127 + 1` overflows and `-128 - 0` does not. -/
theorem test_width_8 :
    after halted (step (machine { smallConfig 4 with cellW := 8 } [2, 7] 0 [127, 1])) =
        some (some .arithmeticOverflow) ∧
      after place (step (machine { smallConfig 4 with cellW := 8 } [3, 7] 0 [-128, 0])) = some (1, [some (-128)]) := by
  decide
theorem test_reset_values : State.reset.ip = 0 ∧ State.reset.sp = -1 ∧ State.reset.running = true := by decide

/-! ### The assembler: vectors of L2.8 -/

theorem test_asm_sign : assemble Config.reference (some ['P', 'S', 'H', ' ', '+', '1', '2']) = .ok [0, 12] := by
  decide
theorem test_asm_range :
    literal 32 ['-', '2', '1', '4', '7', '4', '8', '3', '6', '4', '8'] = some (-2147483648) ∧
      literal 32 ['2', '1', '4', '7', '4', '8', '3', '6', '4', '8'] = none ∧ literal 32 ['0', 'x', '1', '0'] = none ∧
      literal 32 ['1', '.', '5'] = none ∧ literal 32 ['-'] = none ∧ literal 32 ['0', '0', '7'] = some 7 := by decide
/-- V-T12: the operand on the next line, after a comment. -/
theorem test_asm_lines :
    assemble Config.reference (some ['P', 'S', 'H', ' ', '#', ' ', 'x', '\n', '3']) = .ok [0, 3] := by decide
theorem test_asm_comment :
    assemble Config.reference (some ['A', 'D', 'D', '#', 'x']) = .ok [2] ∧
      assemble Config.reference (some ['#', 'A', 'D', 'D']) = .ok [] := by decide
/-- V-T16: a comment on a last line without a line feed. V-T17: each other mnemonic, its one cell. -/
theorem test_asm_last_line :
    tokenize ['P', 'S', 'H', ' ', '5', ' ', '#', ' ', 'P', 'S', 'H', ' ', '6'] = [['P', 'S', 'H'], ['5']] ∧
      assembleTokens Config.reference ([Opcode.pop, .add, .sub, .mul, .div, .set, .hlt].map mnemonic) =
        .ok [1, 2, 3, 4, 5, 6, 7] := by decide
/-- V-T15. -/
theorem test_asm_unknown :
    assemble Config.reference (some ['p', 's', 'h', ' ', '5', '\t', 'H', 'L', 'T']) = .ok [7] ∧
      assemble { Config.reference with unknownTokens := .reject } (some ['p', 's', 'h', ' ', '5', '\t', 'H', 'L', 'T']) =
        .error .malformedProgram := by decide
/-- V-T9 and V-T10. -/
theorem test_asm_operand :
    assemble Config.reference (some ['P', 'S', 'H', ' ', 'A', 'D', 'D']) = .error .malformedOperand ∧
      assemble Config.reference (some ['P', 'S', 'H']) = .error .malformedOperand ∧
      assemble Config.reference none = .error .sourceUnreadable := by decide

/-! ### Witnesses: for each statement with hypotheses, states that meet them, one for each clause -/

/-- The machine, halted with a cause. -/
def halt (k : HaltCause) (s : State) : State := s.raiseHalt k

/-- A binary machine's operands, whatever cells they are. -/
theorem binary_operands (op b a : Int) (hb : Representable 32 b := by decide) (ha : Representable 32 a := by decide) :
    (binary op b a).HasOperands b a :=
  ⟨show (1 : Int) ≤ 1 from Int.le_refl 1, show (1 : Int) < 4 by decide, rfl, rfl, ha, hb⟩

theorem binaryRefusing_operands (op b a : Int) (hb : Representable 32 b := by decide) (ha : Representable 32 a := by decide) :
    (binaryRefusing op b a).HasOperands b a :=
  ⟨show (1 : Int) ≤ 1 from Int.le_refl 1, show (1 : Int) < 4 by decide, rfl, rfl, ha, hb⟩

/-- V-D6's machine at its start: PSH 9, then a cell that is no opcode. -/
def startD6 : State := machine (smallConfig 4) [0, 9, 99, 7] 0 []

/-- A machine whose stream ends in a truncated PSH, standing at it with a full stack (V-S8). -/
def truncated : State := machine (smallConfig 1) [1, 0] 1 [5]

/-- A machine that has run past its stream's end (V-D1, program P4). -/
def pastEnd : State := machine (smallConfig 4) [0, 1, 1] 3 []

/-- A machine with room for three pushes and three pops, then past its end. -/
def roomy : State := machine (smallConfig 3) [0, 1, 0, 2, 0, 3, 1, 1, 1, 7] 0 []

theorem test_witness_ready_small : startD6.Ready ∧ truncated.Ready ∧ (binary 3 10 3).Ready ∧
    (binaryRefusing 3 10 3).Ready ∧ roomy.Ready :=
  ⟨by constructor <;> decide, by constructor <;> decide, by constructor <;> decide, by constructor <;> decide,
    by constructor <;> decide⟩

theorem test_witness_inv_small : startD6.Inv ∧ truncated.Inv ∧ (binary 3 10 3).Inv ∧ pastEnd.Inv ∧ roomy.Inv :=
  ⟨by constructor <;> decide, by constructor <;> decide, by constructor <;> decide, by constructor <;> decide,
    by constructor <;> decide⟩

theorem test_witness_DecodeInvertsEncode :
    OpcodeMap.standard.wellFormed 32 = true ∧ (Instr.psh (-2147483648)).wellFormed 32 = true ∧
      OpcodeMap.standard.wellFormed 8 = true ∧ (Instr.psh 127).wellFormed 8 = true := by decide

theorem test_witness_CellBytesRoundTrip : ∀ v ∈ ([-128, 127] : List Int), Representable (8 * 1) v := by decide

theorem test_witness_DecodeAcceptsOnlyEncodings :
    decode OpcodeMap.standard [0, 7, 7] = .instr (.psh 7) [7] := by decide

/-- A non-opcode cell at IP: the least value above the opcodes, a negative one, and the sentinel. -/
theorem test_witness_NonOpcodeCellsHaltUnknown :
    (machine (smallConfig 4) [9] 0 []).Ready ∧ (machine (smallConfig 4) [9] 0 []).imem.read 0 = some 9 ∧
      (∀ op, (9 : Int) ≠ OpcodeMap.standard.value op) ∧ (7 : Int) < 8 ∧ (-1) < 0 ∧
      (machine (smallConfig 4) [8] 0 []).Ready ∧
      (machine (smallConfig 4) [8] 0 []).imem.read 0 = some OpcodeMap.standard.unknown :=
  ⟨by constructor <;> decide, by decide, fun op => by cases op <;> decide, by decide, by decide,
    by constructor <;> decide, by decide⟩

/-- The three kinds of entry, each at IP. -/
theorem test_witness_PredecodedEntryIsTheStep :
    startD6.imem.slice 0 4 = some [0, 9, 99, 7] ∧
      Predecoded.instr 0 (.psh 9) ∈ predecode OpcodeMap.standard 0 [0, 9, 99, 7] ∧ startD6.ip = 0 ∧
      (machine (smallConfig 4) [0, 9, 99, 7] 2 [9]).Ready ∧
      Predecoded.unknown 2 99 ∈ predecode OpcodeMap.standard 0 [0, 9, 99, 7] ∧
      truncated.imem.slice 0 2 = some [1, 0] ∧ Predecoded.pshTruncated 1 ∈ predecode OpcodeMap.standard 0 [1, 0] ∧
      truncated.ip = 1 :=
  ⟨by decide, by decide, by decide, by constructor <;> decide, by decide, by decide, by decide, by decide⟩

theorem test_witness_IpStaysOnTheWalk :
    startD6.Inv ∧ startD6.imem.slice 0 startD6.streamLen = some [0, 9, 99, 7] ∧
      (∃ e ∈ predecode startD6.cfg.opcodes 0 [0, 9, 99, 7], (e.index : Int) = startD6.ip) ∧
      (∃ t, step startD6 = .next t) ∧ pastEnd.ip = pastEnd.n ∧ ∃ t, step pastEnd = .next t :=
  ⟨test_witness_inv_small.1, by decide, ⟨.instr 0 (.psh 9), by decide, by decide⟩, ⟨_, rfl⟩, by decide, ⟨_, rfl⟩⟩

theorem test_witness_StepRunsTheDecodedInstruction :
    startD6.Ready ∧ startD6.ip + (Instr.psh 9).opcode.length ≤ startD6.n ∧
      startD6.imem.slice 0 2 = some [0, 9] ∧ decode startD6.cfg.opcodes [0, 9] = .instr (.psh 9) [] :=
  ⟨test_witness_ready_small.1, by decide, by decide, by decide⟩

/-- At N, and below 0. -/
theorem test_witness_PastTheEndHaltsMissingHalt :
    pastEnd.running = true ∧ pastEnd.n ≤ pastEnd.cfg.imemDepth ∧ ¬(0 ≤ pastEnd.ip ∧ pastEnd.ip < pastEnd.n) ∧
      ¬(0 ≤ (pastEnd.setReg .ip (-1)).ip) := by decide

theorem test_witness_TruncatedPshHaltsMissingHalt :
    truncated.Ready ∧ truncated.ip + 1 = truncated.n ∧
      truncated.imem.read truncated.ip.toNat = some truncated.cfg.opcodes.psh :=
  ⟨test_witness_ready_small.2.1, by decide, by decide⟩

theorem test_witness_HaltedStateIsHeld : (halt .divisionByZero startD6).running = false := rfl

theorem test_witness_OverlongStreamIsRefused :
    (machine (smallConfig 4) (List.replicate 17 7) 0 []).running = true ∧
      ((machine (smallConfig 4) (List.replicate 17 7) 0 []).cfg.imemDepth : Int) <
        (machine (smallConfig 4) (List.replicate 17 7) 0 []).n ∧
      startD6.cfg.imemDepth < (List.replicate 17 (7 : Int)).length := by decide

/-- One step that completes and one that halts. -/
theorem test_witness_StepCompletesOrHalts :
    startD6.Inv ∧ startD6.running = true ∧ after State.running (step startD6) = some true ∧
      pastEnd.Inv ∧ pastEnd.running = true ∧ after State.running (step pastEnd) = some false :=
  ⟨test_witness_inv_small.1, by decide, by decide, test_witness_inv_small.2.2.2.1, by decide, by decide⟩

theorem test_witness_HaltsArePrecise :
    (binary 5 5 0).running = true ∧ after State.running (exec .div (binary 5 5 0)) = some false ∧
      after State.running (step (binary 5 5 0)) = some false ∧ pastEnd.Inv ∧ pastEnd.pastEnd = true ∧
      after State.running (step pastEnd) = some false :=
  ⟨by decide, by decide, by decide, test_witness_inv_small.2.2.2.1, by decide, by decide⟩

/-- A completed PSH, a completed one-cell instruction and a halt. -/
theorem test_witness_IpAdvancesByTheLength :
    startD6.Ready ∧ after State.running (exec (.psh 9) startD6) = some true ∧
      (binary 3 10 3).Ready ∧ after State.running (exec .sub (binary 3 10 3)) = some true ∧
      after State.running (exec .set startD6) = some false ∧ startD6.Inv ∧ ∃ t, step startD6 = .next t :=
  ⟨test_witness_ready_small.1, by decide, test_witness_ready_small.2.2.1, by decide, by decide,
    test_witness_inv_small.1, ⟨_, rfl⟩⟩

theorem test_witness_DepthAccounting :
    startD6.Inv ∧ startD6.Ready ∧ after State.running (exec (.psh 9) startD6) = some true ∧
      after State.running (exec .pop startD6) = some false ∧ (binary 3 10 3).Inv ∧ (binary 3 10 3).Ready ∧
      after State.running (exec .sub (binary 3 10 3)) = some true :=
  ⟨test_witness_inv_small.1, test_witness_ready_small.1, by decide, by decide, test_witness_inv_small.2.2.1,
    test_witness_ready_small.2.2.1, by decide⟩

/-- Each instruction halts somewhere. -/
theorem test_witness_CausesByInstruction :
    truncated.running = true ∧ after State.running (exec (.psh 1) truncated) = some false ∧
      after State.running (exec .pop startD6) = some false ∧ after State.running (exec .add startD6) = some false ∧
      after State.running (exec .sub startD6) = some false ∧ after State.running (exec .mul startD6) = some false ∧
      after State.running (exec .div (binary 5 5 0)) = some false ∧
      after State.running (exec .set startD6) = some false ∧ after State.running (exec .hlt startD6) = some false := by
  decide

/-- The last cell; a full stack; and the last free entry, with the operand in the stream's last cell. -/
theorem test_witness_PshPushesItsImmediate :
    truncated.n ≤ truncated.ip + 1 ∧
      (let s := machine (smallConfig 1) [0, 6] 0 [5]; s.ip + 1 < s.n ∧ s.sp = s.cfg.stackCapacity - 1) ∧
      (machine (smallConfig 2) [0, 6] 0 [5]).Ready ∧
      (let s := machine (smallConfig 2) [0, 6] 0 [5]; s.ip + 1 < s.n ∧ -1 ≤ s.sp ∧ s.sp < s.cfg.stackCapacity - 1) ∧
      -1 ≤ startD6.sp :=
  ⟨by decide, by decide, by constructor <;> decide, by decide, by decide⟩

/-- The empty stack, one entry, and a full stack. -/
theorem test_witness_PopEmitsTheTop :
    startD6.sp = -1 ∧ (machine (smallConfig 1) [1] 0 [5]).Ready ∧
      (let s := machine (smallConfig 1) [1] 0 [5];
        0 ≤ s.sp ∧ s.sp < s.cfg.stackCapacity ∧ s.stk.read s.sp.toNat = some 5) :=
  ⟨by decide, by constructor <;> decide, by decide⟩

/-- Program P5: the stack is filled to its capacity. -/
theorem test_witness_PushedValuesPopInReverse :
    (∀ v ∈ ([1, 2, 3] : List Int), Representable roomy.cfg.cellW v) ∧
      roomy.Inv ∧ roomy.running = true ∧ roomy.sp + ([1, 2, 3] : List Int).length < roomy.cfg.stackCapacity ∧
      roomy.ip + 3 * ([1, 2, 3] : List Int).length ≤ roomy.n :=
  ⟨by decide, test_witness_inv_small.2.2.2.2, by decide, by decide, by decide⟩

/-- Program P6's shape, at capacity 3. -/
theorem test_witness_OverflowIsExact :
    roomy.Inv ∧ roomy.running = true ∧ roomy.sp = -1 ∧ ([1, 2, 3] : List Int).length = roomy.cfg.stackCapacity ∧
      roomy.ip + 2 * (([1, 2, 3] : List Int).length + 1) ≤ roomy.n :=
  ⟨test_witness_inv_small.2.2.2.2, by decide, by decide, by decide, by decide⟩

/-- One entry; `MAX + 1` and `MIN - 1`; and the greatest sum (V-A12, V-A2, V-A4, V-A10). -/
theorem test_witness_AddMeaning :
    (machine (smallConfig 4) [2] 0 [7]).sp < 1 ∧
      (binary 2 2147483647 1).HasOperands 2147483647 1 ∧ 1 > cellMax 32 - 2147483647 ∧
      (binary 2 (-2147483648) (-1)).HasOperands (-2147483648) (-1) ∧
      ((-2147483648) < 0 ∧ (-1) < cellMin 32 - (-2147483648)) ∧
      (binary 2 1073741824 1073741823).Ready ∧ (binary 2 1073741824 1073741823).HasOperands 1073741824 1073741823 ∧
      ¬(1073741823 > cellMax 32 - 1073741824) ∧ ¬((1073741824 : Int) < 0) :=
  ⟨by decide, binary_operands .., by decide, binary_operands .., by decide, by constructor <;> decide,
    binary_operands .., by decide, by decide⟩

/-- V-B14, V-B6, V-B9 and V-B8, whose difference is MIN. -/
theorem test_witness_SubMeaning :
    (machine (smallConfig 4) [3] 0 [4]).sp < 1 ∧
      (binary 3 0 (-2147483648)).cfg.ovfBands = .exactTest ∧ (binary 3 0 (-2147483648)).HasOperands 0 (-2147483648) ∧
      ((-2147483648) < 0 ∧ 0 > cellMax 32 + (-2147483648)) ∧
      ((2147483647 : Int) > 0 ∧ (-2) < cellMin 32 + 2147483647) ∧
      (binary 3 (-1) 2147483647).Ready ∧ (binary 3 (-1) 2147483647).HasOperands (-1) 2147483647 ∧
      ¬((2147483647 : Int) < 0) ∧ ¬((-1) < cellMin 32 + 2147483647) :=
  ⟨by decide, rfl, binary_operands .., by decide, by decide, by constructor <;> decide, binary_operands ..,
    by decide, by decide⟩

/-- V-M16, one overflow for each combination of signs (V-M5, V-M12, V-M9), and V-M8, whose product is MIN. -/
theorem test_witness_MulMeaning :
    startD6.sp < 1 ∧ (binary 4 46341 46341).cfg.ovfBands = .exactTest ∧
      (binary 4 46341 46341).HasOperands 46341 46341 ∧
      46341 > (cellMax 32).tdiv 46341 ∧
      (-46341) < (cellMin 32).tdiv 46341 ∧
      (-2147483648) < (cellMax 32).tdiv (-1) ∧
      (binary 4 (-2147483648) 1).Ready ∧ (binary 4 (-2147483648) 1).HasOperands (-2147483648) 1 ∧
      ¬((-2147483648) < (cellMin 32).tdiv 1) ∧ ¬((-2147483648) > 0) ∧
      ¬((1 : Int) < 0) :=
  ⟨by decide, rfl, binary_operands .., by decide, by decide, by decide, by constructor <;> decide,
    binary_operands .., by decide, by decide, by decide⟩

/-- V-V17, V-V10, V-V11 and V-V12. -/
theorem test_witness_DivMeaning :
    (machine (smallConfig 4) [5] 0 [0]).sp < 1 ∧
      (binary 5 (-2147483648) 0).HasOperands (-2147483648) 0 ∧ (0 : Int) = 0 ∧
      (binary 5 (-2147483648) (-1)).HasOperands (-2147483648) (-1) ∧
      (-2147483648) = cellMin 32 ∧ (-1) = -1 ∧
      (binary 5 (-2147483648) 1).Ready ∧ (binary 5 (-2147483648) 1).HasOperands (-2147483648) 1 ∧
      (1 : Int) ≠ 0 ∧ (1 : Int) ≠ -1 :=
  ⟨by decide, binary_operands .., by decide, binary_operands .., by decide, by decide, by constructor <;> decide,
    binary_operands .., by decide, by decide⟩

/-- A representable and an unrepresentable result of each operation that has both, and a REFUSE machine off the bands. -/
theorem test_witness_ArithmeticIsExactOrHalts :
    (binary 5 (-2147483648) (-1)).Ready ∧ (binary 5 (-2147483648) (-1)).HasOperands (-2147483648) (-1) ∧
      ((-1) ≠ 0 ∧ ¬ Representable 32 ((-2147483648).tdiv (-1))) ∧
      Representable 32 ((-2147483648).tdiv 1) ∧
      Representable 32 (2147483647 + 0) ∧
      ¬ Representable 32 (2147483647 + 1) ∧
      Representable 32 ((-1) - 2147483647) ∧
      ¬ Representable 32 (0 - (-2147483648)) ∧
      Representable 32 ((-2147483648) * 1) ∧
      ¬ Representable 32 ((-2147483648) * (-1)) ∧
      (binaryRefusing 3 10 3).Ready ∧ (binaryRefusing 3 10 3).HasOperands 10 3 ∧
      ArithOp.sub.inBand 32 10 3 = false :=
  ⟨by constructor <;> decide, binary_operands .., by decide, by decide, by decide, by decide, by decide, by decide,
    by decide, by decide, test_witness_ready_small.2.2.2.1, binaryRefusing_operands .., by decide⟩

/-- Both ends of the range at the widths 8 and 32. -/
theorem test_witness_HazardTestsAreExact :
    Representable 32 (-2147483648) ∧ Representable 32 2147483647 ∧ ¬ Representable 32 2147483648 ∧
      Representable 8 (-128) ∧ Representable 8 127 ∧ ¬ Representable 8 128 := by decide

/-- V-V4 and V-V6. -/
theorem test_witness_DivisionRoundsTowardZero :
    (-2 : Int) ≠ 0 ∧ divTrunc (-7) (-2) = 3 ∧ divTrunc (-1) 2 = 0 ∧ divTrunc 0 5 = 0 := by decide

/-- V-B13, V-B12 and V-M8 under REFUSE; operands next to the bands; and instructions that are refused. -/
theorem test_witness_BandsAreRefusedUnderRefuse :
    (binaryRefusing 3 (-1) 2147483647).cfg.ovfBands = .refuseBands ∧
      (binaryRefusing 3 (-1) 2147483647).HasOperands (-1) 2147483647 ∧
      (-1) - 2147483647 = cellMin 32 ∧
      1 - (-2147483647) = cellMax 32 + 1 ∧
      (-2147483648) * 1 = cellMin 32 ∧
      (-2) - 2147483647 ≠ cellMin 32 ∧ exec .sub (binaryRefusing 3 (-1) 2147483647) = .refused (.overflowBand .sub) ∧
      exec .mul (binaryRefusing 4 (-2147483648) 1) = .refused (.overflowBand .mul) ∧
      Representable 8 (-128) ∧ ArithOp.sub.inBand 8 (-1) 127 = true ∧ ArithOp.sub.inBand 8 0 (-127) = false :=
  ⟨rfl, binaryRefusing_operands .., by decide, by decide, by decide, by decide, rfl, rfl, by decide, by decide, by decide⟩

theorem test_witness_HltHaltsNormally :
    startD6.running = true ∧ after (fun t => (t.running, t.haltCause.success)) (exec .hlt startD6) = some (false, true) ∧
      after (fun t => (t.running, t.haltCause.success)) (step (machine (smallConfig 4) [7] 0 [])) =
        some (false, true) := by decide

theorem test_witness_StepKeepsTheFixedState : (∃ t, step startD6 = .next t) ∧ ∃ t, step (binary 5 5 0) = .next t :=
  ⟨⟨_, rfl⟩, ⟨_, rfl⟩⟩

/-- A stack RAM that differs above SP alone. -/
theorem test_witness_DeadEntriesDoNotMatter :
    (binary 3 10 3).Inv ∧
      (∀ j : Nat, (j : Int) ≤ (binary 3 10 3).sp →
        ((binary 3 10 3).stk.write 2 99).read j = (binary 3 10 3).stk.read j) ∧
      (binary 3 10 3).stk.write 2 99 ≠ (binary 3 10 3).stk ∧ ∃ t, step (binary 3 10 3) = .next t := by
  refine ⟨test_witness_inv_small.2.2.1, fun j hj => ?_, by decide, ⟨_, rfl⟩⟩
  have h : j < 2 := by
    have : (binary 3 10 3).sp = 1 := by decide
    omega
  interval_cases j <;> rfl

/-- An instruction memory that differs after the cell of an HLT and outside the stream (V-D9). -/
theorem test_witness_OnlyRequestedCellsMatter :
    (let s := machine (smallConfig 4) [7, 99] 0 [];
      s.imemRequests = [0] ∧ (Memory.read [(0, 7), (1, 5), (9, 3)] 0 = s.imem.read 0)) ∧
      startD6.imemRequests = [0, 1] := by decide

theorem test_witness_StepKeepsTheInvariant :
    startD6.Inv ∧ (∃ t, step startD6 = .next t) ∧ (binary 3 10 3).Inv ∧ ∃ t, step (binary 3 10 3) = .next t :=
  ⟨test_witness_inv_small.1, ⟨_, rfl⟩, test_witness_inv_small.2.2.1, ⟨_, rfl⟩⟩

theorem test_witness_NoFaultFromTheInvariant : startD6.Inv ∧ startD6.cfg.ovfBands = .exactTest :=
  ⟨test_witness_inv_small.1, rfl⟩

theorem test_witness_EveryRunHalts : pastEnd.Inv ∧ pastEnd.cfg.ovfBands = .exactTest ∧ roomy.Inv :=
  ⟨test_witness_inv_small.2.2.2.1, rfl, test_witness_inv_small.2.2.2.2⟩

/-- A stream that fills the instruction memory, and the empty one. -/
theorem test_witness_StartLoadsTheStream :
    startD6.HostInForm ∧ (∀ v ∈ List.replicate 16 (-2147483648 : Int), Representable startD6.cfg.cellW v) ∧
      (List.replicate 16 (-2147483648 : Int)).length ≤ startD6.cfg.imemDepth ∧
      ([] : List Int).length ≤ startD6.cfg.imemDepth :=
  ⟨by constructor <;> decide, by decide, by decide, by decide⟩

/-- A POP, and an arithmetic instruction, that complete. -/
theorem test_witness_OutputBeats :
    (let s := machine (smallConfig 4) [1] 0 [5];
      s.running = true ∧ s.stk.read s.sp.toNat = some 5 ∧ 0 ≤ s.sp ∧ after State.running (exec .pop s) = some true) ∧
      (binary 5 7 2).HasOperands 7 2 ∧ (binary 5 7 2).running = true ∧
      after State.running (exec ArithOp.div.instr (binary 5 7 2)) = some true :=
  ⟨by decide, binary_operands .., by decide, by decide⟩

/-- A halted machine read back at the bottom and at the top of its stack. -/
theorem test_witness_StatusAndReadBackPorts :
    (halt .unimplementedOpcode (binary 6 1 2)).Inv ∧ (halt .unimplementedOpcode (binary 6 1 2)).running = false ∧
      (0 : Int) ≤ 0 ∧ 1 ≤ (halt .unimplementedOpcode (binary 6 1 2)).sp :=
  ⟨by constructor <;> decide, by decide, by decide, by decide⟩

/-- `psh` in small letters is no mnemonic. -/
theorem test_witness_MnemonicsResolveExactly : ∀ op, (['p', 's', 'h'] : Token) ≠ mnemonic op := by
  intro op
  cases op <;> decide

/-- The least literal, one below it, and a stream to stand before. -/
theorem test_witness_LiteralsAreSignedDecimal :
    literal Config.reference.cellW ['-', '2', '1', '4', '7', '4', '8', '3', '6', '4', '8'] = some (-2147483648) ∧
      literal Config.reference.cellW ['-', '2', '1', '4', '7', '4', '8', '3', '6', '4', '9'] = none ∧
      Config.reference.unknownTokens = .skip ∧ assembleTokens Config.reference [['H', 'L', 'T']] = .ok [7] := by decide

/-- An unknown token; a PSH with no token after it, and with one that is no literal. -/
theorem test_witness_UnknownTokensByPolicy :
    resolve ['F', 'O', 'O'] = none ∧ (∀ l ∈ ([] : List Token).head?, literal 32 l = none) ∧
      ∀ l ∈ ([['A', 'D', 'D']] : List Token).head?, literal 32 l = none := by decide

/-- A comment with and without a line feed after it; tokens over two lines, with and without whitespace after the last. -/
theorem test_witness_CommentsAndWhitespace :
    '\n' ∉ ['#', 'x'] ∧ (['A', 'D', 'D'] : Token) ∈ tokenize ['A', 'D', 'D', '#', 'x', '\n', '3'] ∧
      (∀ c ∈ ['\t', ' '], isSpace c = true) ∧
      (∀ p ∈ ([(['P', 'S', 'H'], ['\r', '\n', ' ']), (['4'], [' '])] : List (Token × List Char)),
        p.1 ≠ [] ∧ (∀ c ∈ p.1, isSpace c = false ∧ c ≠ '#') ∧ p.2 ≠ [] ∧ ∀ c ∈ p.2, isSpace c = true) ∧
      (∀ c ∈ ['M', 'U', 'L'], isSpace c = false ∧ c ≠ '#') ∧ ∀ c ∈ ([] : List Char), isSpace c = false ∧ c ≠ '#' :=
  ⟨by decide, by decide, by simp [isSpace], by simp [isSpace], by simp [isSpace], by simp⟩

/-- V-T15's stream under SKIP, an opcode and a literal before streams that assemble and that fail. -/
theorem test_witness_AssembledStreamsDecode :
    Opcode.hlt ≠ .psh ∧ literal Config.reference.cellW ['-', '1'] = some (-1) ∧
      assembleTokens Config.reference [['H', 'L', 'T']] = .ok [7] ∧
      assembleTokens Config.reference [['P', 'S', 'H']] = .error .malformedOperand ∧
      Config.reference.wellFormed = true ∧
      assembleTokens Config.reference [['P', 'S', 'H'], ['-', '1'], ['F', 'O', 'O'], ['H', 'L', 'T']] =
        .ok [0, -1, 7] := by decide

/-- A program booted on a small machine, and its run to the end. -/
theorem test_witness_BootedRunsMeetNoIllegalCell :
    startD6.HostInForm ∧ ∃ t, startD6.boot (some ['P', 'S', 'H', ' ', '1']) = .ok t ∧ ∃ u, runSteps 2 t = .next u :=
  ⟨by constructor <;> decide, _, rfl, _, rfl⟩

end Sys2Proof.Tests
end

/-! ### The register file (O33) -/

namespace Sys2Proof.Machine

theorem Reg.index_inj {q r : Reg} : q.index = r.index ↔ q = r := by
  cases q <;> cases r <;> simp [Reg.index]

/-- Settles O33: the registers have R21's indices, which tell them apart, so that read-after-write by name is read-after-write
by index; IP and SP are entries of the same file. -/
theorem registerFileEntries : Obligations.RegisterFileEntries := by
  refine ⟨rfl, fun s r q v => ?_, fun s v => ⟨rfl, rfl⟩⟩
  simp only [State.setReg_regs, RegFile.get_set, Reg.index_inj]

/-! ### A to F are neither read nor written (O35)

Putting other contents into A to F commutes with every operation of the machine: what an operation reads is the same (below,
the fields and the reads), and what it writes can be written before or after the contents are put in. -/

section WithReserved

variable (v : RegFile) (s : State)

@[simp] theorem State.withReserved_cfg : (s.withReserved v).cfg = s.cfg := rfl
@[simp] theorem State.withReserved_stk : (s.withReserved v).stk = s.stk := rfl
@[simp] theorem State.withReserved_running : (s.withReserved v).running = s.running := rfl
@[simp] theorem State.withReserved_sp : (s.withReserved v).sp = s.sp := rfl
@[simp] theorem State.withReserved_n : (s.withReserved v).n = s.n := rfl
@[simp] theorem State.withReserved_readStack (i : Int) : (s.withReserved v).readStack i = s.readStack i := rfl
@[simp] theorem State.withReserved_requireOperandCell :
    (s.withReserved v).requireOperandCell = s.requireOperandCell := rfl
@[simp] theorem State.withReserved_binaryOperands : (s.withReserved v).binaryOperands = s.binaryOperands := rfl
@[simp] theorem State.withReserved_fetch : (s.withReserved v).fetch = s.fetch := rfl

@[simp] theorem State.withReserved_setStk (m : Memory) :
    (s.withReserved v).setStk m = (s.setStk m).withReserved v := rfl
@[simp] theorem State.withReserved_raiseSp : (s.withReserved v).raiseSp = s.raiseSp.withReserved v := rfl
@[simp] theorem State.withReserved_lowerSp : (s.withReserved v).lowerSp = s.lowerSp.withReserved v := rfl
@[simp] theorem State.withReserved_raiseHalt (c : HaltCause) :
    (s.withReserved v).raiseHalt c = (s.raiseHalt c).withReserved v := rfl

theorem State.withReserved_writeStack (i x : Int) :
    (s.withReserved v).writeStack i x = (s.writeStack i x).map (State.withReserved v) := by
  by_cases h : 0 ≤ i ∧ i < s.cfg.stackCapacity <;> simp [State.writeStack, h, Except.map]

theorem State.withReserved_push (x : Int) :
    (s.withReserved v).push x = (s.push x).map (State.withReserved v) := by
  by_cases h : s.sp = s.cfg.stackCapacity - 1
  · simp [State.push, h, Except.map]
  · simp [State.push, h, State.withReserved_writeStack]

theorem State.withReserved_pop :
    (s.withReserved v).pop = s.pop.map (Prod.map id (State.withReserved v)) := by
  by_cases h : s.sp = -1
  · simp [State.pop, h, Except.map]
  · cases hr : s.readStack s.sp <;> simp [State.pop, h, hr, Except.map]

theorem pshEffect_withReserved (imm : Int) :
    pshEffect imm (s.withReserved v) = (pshEffect imm s).map (State.withReserved v) := by
  simp only [pshEffect, State.withReserved_requireOperandCell, State.withReserved_push]
  cases s.requireOperandCell with
  | error e => rfl
  | ok _ => cases s.push imm <;> rfl

theorem popEffect_withReserved :
    popEffect (s.withReserved v) = (popEffect s).map (State.withReserved v) := by
  simp only [popEffect, State.withReserved_pop]
  cases s.pop <;> rfl

theorem commitBinary_withReserved (op : ArithOp) (b a r : Int) :
    commitBinary op b a r (s.withReserved v) = (commitBinary op b a r s).map (State.withReserved v) := by
  simp only [commitBinary, State.withReserved_lowerSp, State.withReserved_sp, State.withReserved_writeStack]
  cases s.lowerSp.writeStack (s.sp - 1) r <;> rfl

theorem binaryEffect_withReserved (op : ArithOp) :
    binaryEffect op (s.withReserved v) = (binaryEffect op s).map (State.withReserved v) := by
  simp only [binaryEffect, State.withReserved_binaryOperands, State.withReserved_cfg, commitBinary_withReserved]
  cases s.binaryOperands with
  | error e => rfl
  | ok ab =>
    obtain ⟨a, b⟩ := ab
    dsimp only
    cases checkHazard s.cfg op b a <;> rfl

theorem effect_withReserved (i : Instr) :
    effect i (s.withReserved v) = (effect i s).map (State.withReserved v) := by
  cases i with
  | psh imm => exact pshEffect_withReserved v s imm
  | pop => exact popEffect_withReserved v s
  | add => exact binaryEffect_withReserved v s .add
  | sub => exact binaryEffect_withReserved v s .sub
  | mul => exact binaryEffect_withReserved v s .mul
  | div => exact binaryEffect_withReserved v s .div
  | set => rfl
  | hlt => rfl

theorem conclude_withReserved (r : Except Stop State) :
    conclude (s.withReserved v) (r.map (State.withReserved v)) = mapNext (State.withReserved v) (conclude s r) := by
  rcases r with (c | f | q) | t <;> rfl

theorem exec_withReserved (i : Instr) :
    exec i (s.withReserved v) = mapNext (State.withReserved v) (exec i s) := by
  rw [exec_eq, exec_eq, effect_withReserved, conclude_withReserved]

end WithReserved

/-- Settles O35: a held state, a refused stream and a fetch that finds no instruction do not look at A to F, and each
instruction commutes with putting other contents there. -/
theorem reservedRegistersDoNotMatter : Obligations.ReservedRegistersDoNotMatter := by
  intro s v
  cases hr : s.running with
  | false => simp [step, hr, mapNext]
  | true =>
    by_cases hn : s.n ≤ s.cfg.imemDepth
    · cases hf : s.fetch with
      | instr i => simp [step, hr, hn, hf, exec_withReserved]
      | halt c => simp [step, hr, hn, hf, mapNext]
      | fault f => simp [step, hr, hn, hf, mapNext]
    · simp [step, hr, hn, mapNext]

end Sys2Proof.Machine

/-! ### A legal map and the opcode cell: which cells decode to which opcode -/

namespace Sys2Proof

/-- The opcodes in the order of R63's table. -/
def opcodeList : List Opcode := [.psh, .pop, .add, .sub, .mul, .div, .set, .hlt]

theorem mem_opcodeList (op : Opcode) : op ∈ opcodeList := by cases op <;> decide

theorem value_of_decodeOpcode {m : OpcodeMap} {v : Int} {op : Opcode} (h : decodeOpcode m v = some op) :
    v = m.value op := by
  unfold decodeOpcode at h
  split_ifs at h <;> cases h <;> assumption

theorem decodeOpcode_eq_none {m : OpcodeMap} {v : Int} :
    decodeOpcode m v = none ↔ ∀ op, v ≠ m.value op := by
  constructor
  · intro h op
    unfold decodeOpcode at h
    split_ifs at h
    cases op <;> assumption
  · intro h
    cases hd : decodeOpcode m v with
    | none => rfl
    | some op => exact absurd (value_of_decodeOpcode hd) (h op)

theorem OpcodeMap.values_eq (m : OpcodeMap) : m.values = opcodeList.map m.value ++ [m.unknown] := rfl

/-- A legal map tells the opcodes apart, and the sentinel from each of them (R6). -/
theorem OpcodeMap.value_injective_and_unknown_ne {w : Nat} {m : OpcodeMap} (h : m.wellFormed w = true) :
    Function.Injective m.value ∧ ∀ op, m.unknown ≠ m.value op := by
  simp only [OpcodeMap.wellFormed, Bool.and_eq_true, decide_eq_true_eq] at h
  obtain ⟨hnodup, -⟩ := h
  rw [OpcodeMap.values_eq] at hnodup
  obtain ⟨hmap, -, hdisjoint⟩ := List.nodup_append.1 hnodup
  constructor
  · intro op op' heq
    exact List.inj_on_of_nodup_map hmap (mem_opcodeList op) (mem_opcodeList op') heq
  · intro op heq
    exact hdisjoint _ (List.mem_map_of_mem (mem_opcodeList op)) _ (List.mem_singleton.2 rfl) heq.symm

theorem decodeOpcode_eq_some {w : Nat} {m : OpcodeMap} (h : m.wellFormed w = true) {v : Int} {op : Opcode} :
    decodeOpcode m v = some op ↔ v = m.value op := by
  refine ⟨value_of_decodeOpcode, ?_⟩
  rintro rfl
  cases hd : decodeOpcode m (m.value op) with
  | none => exact absurd rfl (decodeOpcode_eq_none.1 hd op)
  | some op' =>
    have hinj := (OpcodeMap.value_injective_and_unknown_ne h).1
    rw [hinj (value_of_decodeOpcode hd)]

theorem OpcodeMap.standard_value_bounds (op : Opcode) :
    0 ≤ OpcodeMap.standard.value op ∧ OpcodeMap.standard.value op ≤ 7 := by
  cases op <;> decide

end Sys2Proof

/-! ### Halts the cycle finds: past the end (O9), and at a cell that is no opcode (O4) -/

namespace Sys2Proof.Machine

/-- Raising a halt writes RUNNING and HALT_CAUSE alone (R146). -/
theorem State.raiseHalt_haltsInto (s : State) (c : HaltCause) : s.HaltsInto (s.raiseHalt c) c where
  fixed := by constructor <;> rfl
  running := rfl
  haltCause := rfl
  ip := rfl
  sp := rfl
  stk := rfl
  trace := rfl

/-- A cause that the fetch finds ends the step. -/
theorem step_of_fetch_halt {s : State} {c : HaltCause} (hr : s.running = true) (hn : s.n ≤ s.cfg.imemDepth)
    (hf : s.fetch = .halt c) : step s = .next (s.raiseHalt c) :=
  step_next.2 (.inr ⟨hr, hn, .inr ⟨c, hf, rfl⟩⟩)

theorem State.fetch_of_pastEnd {s : State} (h : s.pastEnd = true) : s.fetch = .halt .missingHalt := by
  simp [State.fetch, State.fetchCells, h, decode]

theorem State.fetch_of_decodeOpcode_none {s : State} {v : Int} (hp : s.pastEnd = false)
    (hv : s.imem.read s.ip.toNat = some v) (hd : decodeOpcode s.cfg.opcodes v = none) :
    s.fetch = .halt .unknownOpcode := by
  simp [State.fetch, State.fetchCells, State.memRead, hp, hv, hd, decode]

/-- Settles O9: past the end the fetch finds MissingHalt, whose halt is no success. -/
theorem pastTheEndHaltsMissingHalt : Obligations.PastTheEndHaltsMissingHalt := by
  intro s hr hn hip
  have hf : s.fetch = .halt .missingHalt := State.fetch_of_pastEnd (State.pastEnd_iff.2 hip)
  exact ⟨_, step_of_fetch_halt hr hn hf, s.raiseHalt_haltsInto _, rfl⟩

/-- Settles O4: a cell that equals no opcode's value decodes to none, so the fetch finds UnknownOpcode; under a legal map the
sentinel's value is such a cell. -/
theorem nonOpcodeCellsHaltUnknown : Obligations.NonOpcodeCellsHaltUnknown := by
  refine ⟨fun _ _ _ _ hm => decodeOpcode_eq_some hm, fun v hv => ?_, fun s v hs hread hv => ?_, rfl⟩
  · refine decodeOpcode_eq_none.2 fun op heq => ?_
    have := OpcodeMap.standard_value_bounds op
    omega
  · obtain ⟨-, -, -, -, -, hm⟩ := Config.bounds hs.config
    have hno : ∀ op, v ≠ s.cfg.opcodes.value op := by
      rcases hv with hv | rfl
      · exact hv
      · exact (OpcodeMap.value_injective_and_unknown_ne hm).2
    have hp : s.pastEnd = false := by
      rw [← Bool.not_eq_true, State.pastEnd_iff, not_not]
      exact ⟨hs.ipNonneg, hs.ipLt⟩
    have hf := State.fetch_of_decodeOpcode_none hp hread (decodeOpcode_eq_none.2 hno)
    exact ⟨_, step_of_fetch_halt hs.running hs.streamFits hf, s.raiseHalt_haltsInto _⟩

/-! ### IP advances by the instruction's length (O15) -/

/-- An instruction that completes advances IP by its length (R73) and keeps RUNNING. -/
theorem effect_ok_ip {i : Instr} {s t : State} (h : effect i s = .ok t) :
    t.ip = s.ip + i.opcode.length ∧ t.running = s.running := by
  have binary {op : ArithOp} (h : binaryEffect op s = .ok t) : t.ip = s.ip + 1 ∧ t.running = s.running := by
    obtain ⟨a, b, -, -, rfl⟩ := binaryEffect_ok.1 h
    exact ⟨rfl, rfl⟩
  cases i with
  | psh imm =>
    obtain ⟨-, -, rfl⟩ := pshEffect_ok.1 h
    exact ⟨rfl, rfl⟩
  | pop =>
    obtain ⟨v, -, rfl⟩ := popEffect_ok.1 h
    exact ⟨rfl, rfl⟩
  | add => exact binary h
  | sub => exact binary h
  | mul => exact binary h
  | div => exact binary h
  | set => cases h
  | hlt => cases h

/-- An instruction either completes, RUNNING as it was and IP past its cells, or halts with IP at its opcode cell. -/
theorem exec_next_ip {i : Instr} {s t : State} (h : exec i s = .next t) :
    (t.running = s.running ∧ t.ip = s.ip + i.opcode.length) ∨ (t.running = false ∧ t.ip = s.ip) := by
  rcases exec_next.1 h with hok | ⟨c, -, rfl⟩
  · exact .inl (effect_ok_ip hok).symm
  · exact .inr ⟨rfl, rfl⟩

/-- No step lowers IP, from any state: a held state and a halt keep it (R134). -/
theorem step_next_ip_le {s t : State} (h : step s = .next t) : s.ip ≤ t.ip := by
  rcases step_next.1 h with ⟨-, rfl⟩ | ⟨-, -, ⟨i, -, hex⟩ | ⟨c, -, rfl⟩⟩
  · exact le_refl _
  · rcases exec_next_ip hex with ⟨-, hip⟩ | ⟨-, hip⟩ <;> omega
  · exact le_refl s.ip

/-- Settles O15: RUNNING tells which of the two ends of an instruction a state is; the bound on a step needs no invariant. -/
theorem ipAdvancesByTheLength : Obligations.IpAdvancesByTheLength := by
  refine ⟨fun i s t hr h => ?_, fun s t _ h => step_next_ip_le h⟩
  rcases exec_next_ip h with ⟨hrun, hip⟩ | ⟨hrun, hip⟩
  · refine ⟨fun _ => ?_, fun hhalt => by simp [hrun, hr] at hhalt⟩
    cases i <;> exact hip
  · exact ⟨fun ht => by simp [hrun] at ht, fun _ => hip⟩

/-! ### Mnemonics (O47) -/

theorem resolve_eq_some {tok : Token} {op : Opcode} : resolve tok = some op ↔ tok = mnemonic op := by
  constructor
  · intro h
    unfold resolve at h
    simpa [eq_comm] using List.find?_some h
  · rintro rfl
    cases op <;> rfl

theorem resolve_eq_none {tok : Token} : resolve tok = none ↔ ∀ op, tok ≠ mnemonic op := by
  simp only [Option.eq_none_iff_forall_ne_some, ne_eq, resolve_eq_some]

@[simp] theorem resolve_mnemonic (op : Opcode) : resolve (mnemonic op) = some op := resolve_eq_some.2 rfl

/-- Settles O47: a token resolves to an opcode exactly when it is its mnemonic, which fixes the token's value too. -/
theorem mnemonicsResolveExactly : Obligations.MnemonicsResolveExactly := by
  refine ⟨fun _ _ => resolve_eq_some, fun m op => ?_, fun m tok h => ?_, by decide⟩
  · simp [mnemonicValue]
  · simp [mnemonicValue, resolve_eq_none.2 h]

/-! ### Literals (O48) -/

/-- A decimal digit (R83). -/
abbrev IsDigit (c : Char) : Prop := 48 ≤ c.toNat ∧ c.toNat ≤ 57

/-- The value of a run of decimal digits after a prefix of value `acc`, as an integer. -/
def decimalFrom (acc : Int) (digits : List Char) : Int :=
  digits.foldl (fun (acc : Int) c => 10 * acc + ((c.toNat : Int) - 48)) acc

/-- The digit loop succeeds on digits alone, with their decimal value. -/
theorem digitsValue_map_cast (acc : Nat) (digits : List Char) :
    (digitsValue acc digits).map (Nat.cast : Nat → Int) =
      if ∀ c ∈ digits, IsDigit c then some (decimalFrom acc digits) else none := by
  induction digits generalizing acc with
  | nil => simp [digitsValue, decimalFrom]
  | cons c cs ih =>
    simp only [List.forall_mem_cons]
    by_cases h : IsDigit c
    · have hd : digitValue c = some (c.toNat - 48) := if_pos h
      have hacc : ((10 * acc + (c.toNat - 48) : Nat) : Int) = 10 * (acc : Int) + ((c.toNat : Int) - 48) := by omega
      simp only [digitsValue, hd, ih, hacc, and_iff_right h, decimalFrom, List.foldl_cons]
    · have hd : digitValue c = none := if_neg h
      simp only [digitsValue, hd, h, false_and, if_false, Option.map_none]

/-- One or more digits denote their decimal value, and no other run denotes one (R83); `σ` is the factor of a sign. -/
theorem unsignedLiteral_map_eq_some {σ v : Int} {digits : List Char} :
    (unsignedLiteral digits).map (fun n : Nat => σ * n) = some v ↔
      digits ≠ [] ∧ (∀ c ∈ digits, IsDigit c) ∧ v = σ * decimalFrom 0 digits := by
  cases digits with
  | nil => simp [unsignedLiteral]
  | cons c cs =>
    have hmap : (unsignedLiteral (c :: cs)).map (fun n : Nat => σ * n) =
        ((digitsValue 0 (c :: cs)).map (Nat.cast : Nat → Int)).map (σ * ·) := (Option.map_map ..).symm
    rw [hmap, digitsValue_map_cast]
    simp [eq_comm]

/-- The form of a literal (R83): an optional sign and one or more digits, with the integer they denote. -/
def SignedDecimal (tok : Token) (v : Int) : Prop :=
  ∃ sign digits : List Char, tok = sign ++ digits ∧ (sign = [] ∨ sign = ['+'] ∨ sign = ['-']) ∧ digits ≠ [] ∧
    (∀ c ∈ digits, IsDigit c) ∧ v = (if sign = ['-'] then -1 else 1) * decimalFrom 0 digits

theorem literalInt_minus (cs : List Char) :
    literalInt ('-' :: cs) = (unsignedLiteral cs).map (fun n : Nat => -1 * (n : Int)) := by
  simp [literalInt]

theorem literalInt_plus (cs : List Char) :
    literalInt ('+' :: cs) = (unsignedLiteral cs).map (fun n : Nat => 1 * (n : Int)) := by
  simp [literalInt]

theorem literalInt_of_no_sign {c : Char} (hm : c ≠ '-') (hp : c ≠ '+') (cs : List Char) :
    literalInt (c :: cs) = (unsignedLiteral (c :: cs)).map (fun n : Nat => 1 * (n : Int)) := by
  simp [literalInt, hm, hp]

theorem literalInt_eq_some {tok : Token} {v : Int} : literalInt tok = some v ↔ SignedDecimal tok v := by
  constructor
  · intro h
    cases tok with
    | nil => cases h
    | cons c cs =>
      by_cases hm : c = '-'
      · subst hm
        rw [literalInt_minus, unsignedLiteral_map_eq_some] at h
        exact ⟨['-'], cs, rfl, .inr (.inr rfl), h⟩
      · by_cases hp : c = '+'
        · subst hp
          rw [literalInt_plus, unsignedLiteral_map_eq_some] at h
          exact ⟨['+'], cs, rfl, .inr (.inl rfl), h⟩
        · rw [literalInt_of_no_sign hm hp, unsignedLiteral_map_eq_some] at h
          exact ⟨[], c :: cs, rfl, .inl rfl, h⟩
  · rintro ⟨sign, digits, rfl, rfl | rfl | rfl, h⟩
    · obtain ⟨c, cs, rfl⟩ := List.exists_cons_of_ne_nil h.1
      have hdigit : IsDigit c := h.2.1 c (List.mem_cons_self ..)
      have hm : c ≠ '-' := by rintro rfl; exact absurd hdigit (by decide)
      have hp : c ≠ '+' := by rintro rfl; exact absurd hdigit (by decide)
      exact (literalInt_of_no_sign hm hp cs).trans (unsignedLiteral_map_eq_some.2 h)
    · exact (literalInt_plus digits).trans (unsignedLiteral_map_eq_some.2 h)
    · exact (literalInt_minus digits).trans (unsignedLiteral_map_eq_some.2 h)

theorem literal_eq_some {w : Nat} {tok : Token} {v : Int} :
    literal w tok = some v ↔ Representable w v ∧ SignedDecimal tok v := by
  rw [← literalInt_eq_some]
  unfold literal
  cases literalInt tok with
  | none => simp
  | some x =>
    simp only [Option.ite_none_right_eq_some, Option.some.injEq]
    exact and_congr_left fun hx => by rw [hx]

/-! ### The assembly of PSH (R84) -/

theorem assembleTokens_psh_literal {cfg : Config} {tok : Token} {v : Int} (h : literal cfg.cellW tok = some v)
    (toks : List Token) :
    assembleTokens cfg (mnemonic .psh :: tok :: toks) =
      prependCells [cfg.opcodes.psh, v] (assembleTokens cfg toks) := by
  rw [assembleTokens]
  simp only [resolve_mnemonic, h]

theorem assembleTokens_psh_malformed {cfg : Config} {tok : Token} (h : literal cfg.cellW tok = none)
    (toks : List Token) :
    assembleTokens cfg (mnemonic .psh :: tok :: toks) = .error (operandError cfg.unknownTokens) := by
  rw [assembleTokens]
  simp only [resolve_mnemonic, h]

/-- Settles O48: the literal decides how PSH assembles, and the literals are R83's. -/
theorem literalsAreSignedDecimal : Obligations.LiteralsAreSignedDecimal := by
  refine ⟨fun cfg tok v toks out hlit hout => ?_, fun cfg tok toks hskip hlit => ?_, fun _ _ _ => literal_eq_some⟩
  · rw [assembleTokens_psh_literal hlit, hout]
    rfl
  · rw [assembleTokens_psh_malformed hlit, hskip]
    rfl

end Sys2Proof.Machine

/-! ### PSH and POP (O18, O19) -/

namespace Sys2Proof.Machine

/-- An effect that raises a cause ends the instruction in that halt, with the frame of R146. -/
theorem exec_haltsInto {i : Instr} {s : State} {c : HaltCause} (h : effect i s = .error (.halt c)) :
    ∃ t, exec i s = .next t ∧ s.HaltsInto t c :=
  ⟨_, exec_next.2 (.inr ⟨c, h, rfl⟩), s.raiseHalt_haltsInto c⟩

/-- A write to the entry of a stack index that exists changes no other entry. -/
theorem State.stackSameExcept_of_write {s t : State} {i v : Int} (hi : 0 ≤ i) (h : t.stk = s.stk.write i.toNat v) :
    s.StackSameExcept t i := by
  intro j hj
  have hne : j ≠ i.toNat := by omega
  rw [h, Memory.read_write_other _ v hne]

/-- The frame of a PSH that completes: it emits no record, and writes IP, SP and the stack alone (R102). -/
theorem pshEffect_completesInto {imm : Int} {s t : State} (h : pshEffect imm s = .ok t) :
    s.CompletesInto t 2 1 [] := by
  obtain ⟨-, -, rfl⟩ := pshEffect_ok.1 h
  exact {
    fixed := by constructor <;> rfl
    running := rfl
    haltCause := rfl
    ip := rfl
    sp := rfl
    trace := (List.append_nil s.trace).symm }

/-- What a PSH that completes leaves on the stack: the immediate in the entry above the old top, the other entries as they
were (R100). -/
theorem pshEffect_stack {imm : Int} {s t : State} (h : pshEffect imm s = .ok t) :
    t.stk.read (s.sp + 1).toNat = some imm ∧ s.StackSameExcept t (s.sp + 1) := by
  obtain ⟨-, ⟨-, hnonneg, -⟩, rfl⟩ := pshEffect_ok.1 h
  exact ⟨Memory.read_write_same .., State.stackSameExcept_of_write hnonneg rfl⟩

/-- The frame of a POP that completes: one record, of the top entry, and the stack itself as it was (R28, R103). -/
theorem popEffect_completesInto {s t : State} {v : Int} (htop : s.stk.read s.sp.toNat = some v)
    (h : popEffect s = .ok t) : s.CompletesInto t 1 (-1) [.popped v] ∧ t.stk = s.stk := by
  obtain ⟨w, ⟨-, hw⟩, rfl⟩ := popEffect_ok.1 h
  obtain rfl : w = v := Option.some.inj (hw.symm.trans htop)
  refine ⟨?_, rfl⟩
  exact {
    fixed := by constructor <;> rfl
    running := rfl
    haltCause := rfl
    ip := rfl
    sp := rfl
    trace := rfl }

/-- Settles O18: MissingHalt is looked for before StackOverflow, and a PSH that meets neither pushes. -/
theorem pshPushesItsImmediate : Obligations.PshPushesItsImmediate := by
  refine ⟨fun _ => rfl, fun imm s hend => ?_, fun imm s hin hfull => ?_, fun imm s _ hin hge hroom => ?_⟩
  · exact exec_haltsInto (pshEffect_halt.2 (.inl ⟨hend, rfl⟩))
  · exact exec_haltsInto (pshEffect_halt.2 (.inr ⟨hin, hfull, rfl⟩))
  · obtain ⟨t, hpush⟩ : ∃ t, pshEffect imm s = .ok t :=
      ⟨_, pshEffect_ok.2 ⟨hin, ⟨by omega, by omega, by omega⟩, rfl⟩⟩
    exact ⟨_, exec_next.2 (.inl hpush), pshEffect_completesInto hpush, pshEffect_stack hpush⟩

/-- Settles O19: POP underflows on the empty stack alone, and otherwise emits the top entry without clearing it. -/
theorem popEmitsTheTop : Obligations.PopEmitsTheTop := by
  refine ⟨rfl, fun s hempty => ?_, fun s v _ hge hlt htop => ?_⟩
  · exact exec_haltsInto (popEffect_halt.2 ⟨hempty, rfl⟩)
  · have hpop := popEffect_ok.2 ⟨v, ⟨⟨hge, hlt⟩, htop⟩, rfl⟩
    obtain ⟨hframe, hstk⟩ := popEffect_completesInto htop hpop
    exact ⟨_, exec_next.2 (.inl hpop), hframe, fun j => by rw [hstk]⟩

end Sys2Proof.Machine

/-! ### The arithmetic instructions: exact or halted (O22 to O26) -/

namespace Sys2Proof

theorem cellMin_eq (w : Nat) : cellMin w = -cellMax w - 1 := by
  unfold cellMin cellMax
  omega

theorem cellMax_nonneg (w : Nat) : 0 ≤ cellMax w := by
  have hpow : 0 < 2 ^ (w - 1) := Nat.two_pow_pos _
  unfold cellMax
  omega

end Sys2Proof

namespace Sys2Proof.Machine

/-! #### Division that rounds toward zero -/

theorem natAbs_tdiv_eq_div (b a : Int) : (b.tdiv a).natAbs = b.natAbs / a.natAbs := Int.natAbs_tdiv b a

/-- The quotient of R123 is the one of `Int.tdiv`. -/
theorem divTrunc_eq_tdiv (b a : Int) : divTrunc b a = b.tdiv a := by
  rw [divTrunc, ← natAbs_tdiv_eq_div]
  by_cases hlt : b.natAbs < a.natAbs
  · have hzero : b.tdiv a = 0 := Int.sign_eq_zero_iff_zero.1 ((Int.sign_tdiv b a).trans (if_pos hlt))
    simp [hzero]
  · have hsign : (b.tdiv a).sign = b.sign * a.sign := (Int.sign_tdiv b a).trans (if_neg hlt)
    rw [← hsign, Int.sign_mul_natAbs]

theorem tdiv_lt_iff {m c x : Int} (hm : 0 ≤ m) (hc : 0 < c) : m.tdiv c < x ↔ m < x * c := by
  rw [Int.tdiv_eq_ediv_of_nonneg hm, Int.ediv_lt_iff_lt_mul hc]

theorem lt_tdiv_iff {m c x : Int} (hm : m ≤ 0) (hc : 0 < c) : x < m.tdiv c ↔ x * c < m := by
  have h := tdiv_lt_iff (x := -x) (Int.neg_nonneg_of_nonpos hm) hc
  rw [Int.neg_tdiv, Int.neg_mul] at h
  omega

/-! #### Each hazard test holds exactly where the exact result is no cell -/

theorem addOverflows_iff {w : Nat} {b a : Int} (ha : Representable w a) :
    addOverflows w b a = true ↔ ¬ Representable w (b + a) := by
  simp only [addOverflows, decide_eq_true_eq]
  omega

theorem subOverflows_iff {w : Nat} {b a : Int} (hb : Representable w b) :
    subOverflows w b a = true ↔ ¬ Representable w (b - a) := by
  simp only [subOverflows, decide_eq_true_eq]
  omega

theorem mulOverflows_eq_true {w : Nat} {b a : Int} : mulOverflows w b a = true ↔
    (b > 0 ∧ a > 0 ∧ b > (cellMax w).tdiv a) ∨ (b > 0 ∧ a < 0 ∧ a < (cellMin w).tdiv b) ∨
      (b < 0 ∧ a > 0 ∧ b < (cellMin w).tdiv a) ∨ (b < 0 ∧ a < 0 ∧ b < (cellMax w).tdiv a) := by
  simp only [mulOverflows, divTrunc_eq_tdiv, decide_eq_true_eq]

theorem mulOverflows_iff {w : Nat} {b a : Int} :
    mulOverflows w b a = true ↔ ¬ Representable w (b * a) := by
  rw [mulOverflows_eq_true]
  have hmax := cellMax_nonneg w
  have hmin := cellMin_eq w
  rcases lt_trichotomy b 0 with hb | rfl | hb
  · rcases lt_trichotomy a 0 with ha | rfl | ha
    · have hprod : 0 < b * a := Int.mul_pos_of_neg_of_neg hb ha
      have htest : b < (-cellMax w).tdiv (-a) ↔ b * -a < -cellMax w := lt_tdiv_iff (by omega) (by omega)
      rw [Int.tdiv_neg, Int.neg_tdiv, Int.neg_neg, Int.mul_neg] at htest
      omega
    · omega
    · have hprod : b * a < 0 := Int.mul_neg_of_neg_of_pos hb ha
      have htest : b < (cellMin w).tdiv a ↔ b * a < cellMin w := lt_tdiv_iff (by omega) ha
      omega
  · omega
  · rcases lt_trichotomy a 0 with ha | rfl | ha
    · have hprod : b * a < 0 := Int.mul_neg_of_pos_of_neg hb ha
      have htest : a < (cellMin w).tdiv b ↔ a * b < cellMin w := lt_tdiv_iff (by omega) hb
      rw [Int.mul_comm a b] at htest
      omega
    · omega
    · have hprod : 0 < b * a := Int.mul_pos hb ha
      have htest : (cellMax w).tdiv a < b ↔ cellMax w < b * a := tdiv_lt_iff hmax ha
      omega

/-- The quotient by a divisor other than 1 and -1 is at most half as large as its dividend, so the one quotient of cells that is
no cell is that of MIN by -1 (R117). -/
theorem divOverflows_iff {w : Nat} {b a : Int} (hb : Representable w b) (h0 : a ≠ 0) :
    (b = cellMin w ∧ a = -1) ↔ ¬ Representable w (divTrunc b a) := by
  have hmin := cellMin_eq w
  have hmax := cellMax_nonneg w
  rw [divTrunc_eq_tdiv]
  by_cases hneg : a = -1
  · rw [hneg, Int.tdiv_neg, Int.tdiv_one]
    omega
  by_cases hone : a = 1
  · rw [hone, Int.tdiv_one]
    omega
  have hhalf : (b.tdiv a).natAbs ≤ b.natAbs / 2 := by
    rw [natAbs_tdiv_eq_div]
    exact Nat.div_le_div_left (by omega) two_pos
  omega

/-- The hazard test of an operation, with DivisionByZero left aside, is exact: it fires where the result is no cell (R112, R114,
R116, R117). -/
theorem ArithOp.hazard_eq {op : ArithOp} {w : Nat} {b a : Int} (hb : Representable w b) (ha : Representable w a)
    (h0 : op = .div → a ≠ 0) :
    op.hazard w b a = if ¬ Representable w (op.result b a) then some .arithmeticOverflow else none := by
  cases op with
  | add => exact if_congr (addOverflows_iff ha) rfl rfl
  | sub => exact if_congr (subOverflows_iff hb) rfl rfl
  | mul => exact if_congr mulOverflows_iff rfl rfl
  | div => exact (if_neg (h0 rfl)).trans (if_congr (divOverflows_iff hb (h0 rfl)) rfl rfl)

/-! #### The two ends of a binary operation -/

theorem effect_instr (op : ArithOp) (s : State) : effect op.instr s = binaryEffect op s := by
  cases op <;> rfl

/-- With fewer than two entries a binary operation underflows (R110). -/
theorem exec_binary_underflow (op : ArithOp) {s : State} (h : s.sp < 1) :
    ∃ t, exec op.instr s = .next t ∧ s.HaltsInto t .stackUnderflow :=
  exec_haltsInto ((effect_instr op s).trans (binaryEffect_halt.2 (.inl ⟨h, rfl⟩)))

section Operands

variable {op : ArithOp} {s : State} {b a : Int} (hops : s.HasOperands b a)
include hops

/-- The operands as the depth check and the stack reads find them. -/
theorem State.HasOperands.reads : (1 ≤ s.sp ∧ s.sp < s.cfg.stackCapacity) ∧ s.stk.read s.sp.toNat = some a ∧
    s.stk.read (s.sp - 1).toNat = some b :=
  ⟨⟨hops.depth, hops.inStack⟩, hops.top, hops.second⟩

/-- A hazard ends a binary operation in its cause. -/
theorem exec_binary_haltsInto {c : HaltCause} (hband : ¬ bandRefused s.cfg op b a)
    (hc : op.hazard s.cfg.cellW b a = some c) : ∃ t, exec op.instr s = .next t ∧ s.HaltsInto t c :=
  exec_haltsInto ((effect_instr op s).trans (binaryEffect_halt.2 (.inr ⟨a, b, hops.reads, hband, hc⟩)))

/-- The commit of a result that is a cell has the frame of R110. -/
theorem committed_commitsBinary {x : Int} (hx : Representable s.cfg.cellW x) :
    s.CommitsBinary (committed op b a x s) op b a x where
  isCell := hx
  result := Memory.read_write_same ..
  completes := {
    fixed := by constructor <;> rfl
    running := rfl
    haltCause := rfl
    ip := rfl
    sp := rfl
    trace := rfl }
  others := State.stackSameExcept_of_write (by have := hops.depth; omega) rfl

/-- Where no band is refused and the divisor is no 0, a binary operation commits its exact result if that is a cell, and
otherwise halts (R120). -/
theorem exec_binary_exact_or_halts (hband : ¬ bandRefused s.cfg op b a) (h0 : op = .div → a ≠ 0) :
    (Representable s.cfg.cellW (op.result b a) →
      ∃ t, exec op.instr s = .next t ∧ s.CommitsBinary t op b a (op.result b a)) ∧
    (¬ Representable s.cfg.cellW (op.result b a) →
      ∃ t, exec op.instr s = .next t ∧ s.HaltsInto t .arithmeticOverflow) := by
  have hz := ArithOp.hazard_eq hops.secondIsCell hops.topIsCell h0
  refine ⟨fun hcell => ?_, fun hno => exec_binary_haltsInto hops hband (hz.trans (if_pos hno))⟩
  have hok := binaryEffect_ok.2 ⟨a, b, hops.reads, ⟨hband, hz.trans (if_neg (not_not.2 hcell))⟩, rfl⟩
  exact ⟨_, exec_next.2 (.inl ((effect_instr op s).trans hok)), committed_commitsBinary hops hcell⟩

/-- The same said through a hazard test that is exact. -/
theorem exec_binary_of_exact_test {test : Prop} (hband : ¬ bandRefused s.cfg op b a) (h0 : op = .div → a ≠ 0)
    (hexact : test ↔ ¬ Representable s.cfg.cellW (op.result b a)) :
    (test → ¬ Representable s.cfg.cellW (op.result b a) ∧
      ∃ t, exec op.instr s = .next t ∧ s.HaltsInto t .arithmeticOverflow) ∧
    (¬ test → ∃ t, exec op.instr s = .next t ∧ s.CommitsBinary t op b a (op.result b a)) := by
  obtain ⟨hcommits, hhalts⟩ := exec_binary_exact_or_halts hops hband h0
  rw [hexact, not_not]
  exact ⟨fun hno => ⟨hno, hhalts hno⟩, hcommits⟩

end Operands

theorem not_bandRefused_of_exactTest {cfg : Config} {op : ArithOp} {b a : Int} (h : cfg.ovfBands = .exactTest) :
    ¬ bandRefused cfg op b a := by
  simp [bandRefused, h]

theorem not_bandRefused_of_inBand {cfg : Config} {op : ArithOp} {b a : Int} (h : op.inBand cfg.cellW b a = false) :
    ¬ bandRefused cfg op b a := by
  simp [bandRefused, h]

/-- Settles O22: ADD has no band, and its test is exact. -/
theorem addMeaning : Obligations.AddMeaning := by
  have key {s : State} {b a : Int} (hops : s.HasOperands b a) :=
    exec_binary_of_exact_test (op := .add) hops (not_bandRefused_of_inBand rfl) nofun
      (decide_eq_true_iff.symm.trans (addOverflows_iff hops.topIsCell))
  exact ⟨rfl, fun _ => exec_binary_underflow .add, fun _ _ _ hops => (key hops).1, fun _ _ _ _ hops => (key hops).2⟩

/-- Settles O23: under EXACT no band is refused, and SUB's test is exact. -/
theorem subMeaning : Obligations.SubMeaning := by
  have key {s : State} {b a : Int} (hexact : s.cfg.ovfBands = .exactTest) (hops : s.HasOperands b a) :=
    exec_binary_of_exact_test (op := .sub) hops (not_bandRefused_of_exactTest hexact) nofun
      (decide_eq_true_iff.symm.trans (subOverflows_iff hops.secondIsCell))
  exact ⟨rfl, fun _ => exec_binary_underflow .sub, fun _ _ _ hexact hops => (key hexact hops).1,
    fun _ _ _ _ hexact hops => (key hexact hops).2⟩

/-- Settles O24: under EXACT no band is refused, and MUL's test is exact for each combination of signs. -/
theorem mulMeaning : Obligations.MulMeaning := by
  have key {s : State} {b a : Int} (hexact : s.cfg.ovfBands = .exactTest) (hops : s.HasOperands b a) :=
    exec_binary_of_exact_test (op := .mul) hops (not_bandRefused_of_exactTest hexact) nofun
      (mulOverflows_eq_true.symm.trans mulOverflows_iff)
  exact ⟨rfl, fun _ => exec_binary_underflow .mul, fun _ _ _ hexact hops => (key hexact hops).1,
    fun _ _ _ _ hexact hops => (key hexact hops).2⟩

/-- Settles O25: a zero divisor is looked for first, and then MIN by -1 is the one pair without a quotient that is a cell. -/
theorem divMeaning : Obligations.DivMeaning := by
  have hband {s : State} {b a : Int} : ¬ bandRefused s.cfg .div b a := not_bandRefused_of_inBand rfl
  have key {s : State} {b a : Int} (hops : s.HasOperands b a) (h0 : a ≠ 0) :=
    exec_binary_of_exact_test (op := .div) hops hband (fun _ => h0) (divOverflows_iff hops.secondIsCell h0)
  refine ⟨rfl, fun _ => exec_binary_underflow .div, fun s b a hops hzero => ?_, fun s b a hops hmin hneg => ?_,
    fun s b a _ hops h0 => (key hops h0).2⟩
  · exact exec_binary_haltsInto (op := .div) hops hband (if_pos hzero)
  · exact ((key hops (by omega)).1 ⟨hmin, hneg⟩).2

/-- Settles O26: the result the statement names is the operation's own, and its hazard test is exact. -/
theorem arithmeticIsExactOrHalts : Obligations.ArithmeticIsExactOrHalts := by
  intro op s b a x _ hops hpolicy hx
  have hband : ¬ bandRefused s.cfg op b a := hpolicy.elim not_bandRefused_of_exactTest not_bandRefused_of_inBand
  obtain ⟨h0, rfl⟩ : (op = .div → a ≠ 0) ∧ x = op.result b a := by
    cases op with
    | add => exact ⟨nofun, hx⟩
    | sub => exact ⟨nofun, hx⟩
    | mul => exact ⟨nofun, hx⟩
    | div => exact ⟨fun _ => hx.1, hx.2.trans (divTrunc_eq_tdiv b a).symm⟩
  exact exec_binary_exact_or_halts hops hband h0

end Sys2Proof.Machine

/-! ### SET and HLT: how a run ends (O30, O31) -/

namespace Sys2Proof.Machine

/-- Settles O30: SET raises its one cause in every state. -/
theorem setHaltsUnimplemented : Obligations.SetHaltsUnimplemented :=
  ⟨rfl, rfl, fun _ => exec_haltsInto (i := .set) rfl⟩

/-- A running machine that an instruction stops has met one of the instruction's causes, and HALT_CAUSE holds it. -/
theorem effect_of_exec_halted {i : Instr} {s t : State} (hr : s.running = true) (h : exec i s = .next t)
    (ht : t.running = false) : effect i s = .error (.halt t.haltCause) := by
  rcases exec_next.1 h with hok | ⟨c, hc, rfl⟩
  · have hrun := (effect_ok_ip hok).2
    simp [hr, ht] at hrun
  · exact hc

theorem HaltCause.success_iff {c : HaltCause} : c.success = true ↔ c = .normal := by
  cases c <;> decide

/-- The causes of the hazard tests (R111, R113, R115, R117). -/
theorem ArithOp.hazard_cause {op : ArithOp} {w : Nat} {b a : Int} {c : HaltCause} (h : op.hazard w b a = some c) :
    c = .arithmeticOverflow ∨ c = .divisionByZero := by
  cases op with
  | add | sub | mul => exact .inl (Option.some.inj (Option.ite_none_right_eq_some.1 h).2).symm
  | div =>
    simp only [ArithOp.hazard] at h
    split_ifs at h
    · exact .inr (Option.some.inj h).symm
    · exact .inl (Option.some.inj h).symm

theorem binaryEffect_ne_halt_normal {op : ArithOp} {s : State} : binaryEffect op s ≠ .error (.halt .normal) := by
  intro h
  rcases binaryEffect_halt.1 h with ⟨-, hc⟩ | ⟨a, b, -, -, hz⟩
  · cases hc
  · rcases ArithOp.hazard_cause hz with hc | hc <;> cases hc

/-- HLT is the one user of the normal halt (R133). -/
theorem eq_hlt_of_effect_halt_normal {i : Instr} {s : State} (h : effect i s = .error (.halt .normal)) : i = .hlt := by
  cases i with
  | psh imm => rcases pshEffect_halt.1 h with ⟨-, hc⟩ | ⟨-, -, hc⟩ <;> cases hc
  | pop => cases (popEffect_halt.1 h).2
  | add => exact absurd h binaryEffect_ne_halt_normal
  | sub => exact absurd h binaryEffect_ne_halt_normal
  | mul => exact absurd h binaryEffect_ne_halt_normal
  | div => exact absurd h binaryEffect_ne_halt_normal
  | set => cases h
  | hlt => rfl

/-- An instruction that ends a run with success is HLT (R133). -/
theorem eq_hlt_of_exec_success {i : Instr} {s t : State} (hr : s.running = true) (h : exec i s = .next t)
    (ht : t.running = false) (hsucc : t.haltCause.success = true) : i = .hlt := by
  have heff := effect_of_exec_halted hr h ht
  rw [HaltCause.success_iff.1 hsucc] at heff
  exact eq_hlt_of_effect_halt_normal heff

/-- A check of the cycle ends no run with success (R70, R71, R102). -/
theorem State.fetch_halt_not_success {s : State} {c : HaltCause} (h : s.fetch = .halt c) : c.success = false := by
  rcases State.fetch_halt h with rfl | rfl <;> rfl

/-- A cycle that ends a run with success has executed HLT. -/
theorem fetch_eq_hlt_of_step_success {s t : State} (hr : s.running = true) (h : step s = .next t)
    (ht : t.running = false) (hsucc : t.haltCause.success = true) : s.fetch = .instr .hlt := by
  rcases step_next.1 h with ⟨hstop, -⟩ | ⟨-, -, ⟨i, hfetch, hex⟩ | ⟨c, hfetch, rfl⟩⟩
  · simp [hr] at hstop
  · rw [hfetch, eq_hlt_of_exec_success hr hex ht hsucc]
  · simp [State.fetch_halt_not_success hfetch] at hsucc

/-- Settles O31: HLT halts with the cause of success in every state, and neither another instruction's causes nor the cycle's own
hold it. -/
theorem hltHaltsNormally : Obligations.HltHaltsNormally := by
  refine ⟨rfl, rfl, fun s => ?_, fun _ _ _ => eq_hlt_of_exec_success, fun _ _ => fetch_eq_hlt_of_step_success⟩
  obtain ⟨t, hex, hhalt⟩ := exec_haltsInto (i := .hlt) (s := s) rfl
  exact ⟨t, hex, hhalt, HaltCause.success_iff.2 hhalt.haltCause⟩

end Sys2Proof.Machine

/-! ### Halts are precise (O14) -/

namespace Sys2Proof.Machine

/-- A running machine that an instruction stops keeps all but RUNNING and HALT_CAUSE (R146). -/
theorem haltsInto_of_exec_halted {i : Instr} {s t : State} (hr : s.running = true) (h : exec i s = .next t)
    (ht : t.running = false) : s.HaltsInto t t.haltCause := by
  obtain ⟨u, hu, hframe⟩ := exec_haltsInto (effect_of_exec_halted hr h ht)
  obtain rfl : t = u := Host.Outcome.next.inj (h.symm.trans hu)
  exact hframe

/-- The same of a whole cycle: its halt is an instruction's, or one that the fetch found (R70 to R72). -/
theorem haltsInto_of_step_halted {s t : State} (hr : s.running = true) (h : step s = .next t)
    (ht : t.running = false) : s.HaltsInto t t.haltCause := by
  rcases step_next.1 h with ⟨hstop, -⟩ | ⟨-, -, ⟨i, -, hex⟩ | ⟨c, -, rfl⟩⟩
  · simp [hr] at hstop
  · exact haltsInto_of_exec_halted hr hex ht
  · exact s.raiseHalt_haltsInto c

/-- Past the end of the stream IP is N exactly, for the invariant keeps `0 ≤ ip ≤ N` (R24). -/
theorem State.Inv.ip_eq_n_of_pastEnd {s : State} (hs : s.Inv) (hp : s.pastEnd = true) : s.ip = s.n := by
  have hout := State.pastEnd_iff.1 hp
  have hge := hs.ipNonneg
  have hle := hs.ipLe
  omega

/-- Settles O14: both ends that a halt can have are `raiseHalt` of the state the cycle began in, and the cycle's own check
fails, under the invariant, at IP = N alone. -/
theorem haltsArePrecise : Obligations.HaltsArePrecise := by
  refine ⟨fun _ _ _ => haltsInto_of_exec_halted, fun _ _ => haltsInto_of_step_halted, fun s t hs hr hp h => ?_⟩
  have hstep := step_of_fetch_halt hr hs.streamFits (State.fetch_of_pastEnd hp)
  obtain rfl : t = s.raiseHalt .missingHalt := Host.Outcome.next.inj (h.symm.trans hstep)
  exact hs.ip_eq_n_of_pastEnd hp

end Sys2Proof.Machine

/-! ### Reset values and the empty stream (O42, O44) -/

namespace Sys2Proof.Machine

@[simp] theorem State.applyReset_ip (s : State) (n : Nat) : (s.applyReset n).ip = 0 := rfl

@[simp] theorem State.applyReset_sp (s : State) (n : Nat) : (s.applyReset n).sp = -1 := rfl

/-- What reset captures of the presented N is the part that fits the port (R53, R171). -/
theorem State.applyReset_n (s : State) (n : Nat) : (s.applyReset n).n = (n % 2 ^ s.cfg.cellW : Nat) := rfl

/-- N = 0 fits a port of every width. -/
@[simp] theorem State.applyReset_n_zero (s : State) : (s.applyReset 0).n = 0 := by
  rw [State.applyReset_n, Nat.zero_mod, Nat.cast_zero]

/-- A stream that fits is loaded and the block is reset with its length presented (R177). -/
theorem State.start_of_fits {s : State} {cells : List Int} (h : cells.length ≤ s.cfg.imemDepth) :
    s.start cells = .ok ((s.loadCells cells).applyReset cells.length) :=
  if_pos h

/-- A halt that leaves all but RUNNING and HALT_CAUSE keeps IP and SP as the accessors read them. -/
theorem State.HaltsInto.ip_sp_eq {s t : State} {c : HaltCause} (h : s.HaltsInto t c) : t.ip = s.ip ∧ t.sp = s.sp :=
  ⟨h.ip, h.sp⟩

/-- Settles O42: reset writes every field it names by a constant, so neither the state before nor N enters. -/
theorem resetValues : Obligations.ResetValues := by
  refine ⟨fun s n => ⟨s.applyReset_ip n, s.applyReset_sp n, s.applyReset_running n, ?_, s.applyReset_trace n⟩,
    rfl, rfl, rfl, rfl, rfl⟩
  exact congrArg HaltCause.code (s.applyReset_haltCause n)

/-- A block reset with N = 0 is past the end of its stream at once: its first step halts with MissingHalt (R70, R178). -/
theorem step_applyReset_zero (s : State) :
    ∃ t, step (s.applyReset 0) = .next t ∧ (s.applyReset 0).HaltsInto t .missingHalt := by
  have hfits : (s.applyReset 0).n ≤ (s.applyReset 0).cfg.imemDepth := by simp
  have hout : ¬(0 ≤ (s.applyReset 0).ip ∧ (s.applyReset 0).ip < (s.applyReset 0).n) := by simp
  obtain ⟨t, hstep, hhalt, -⟩ := pastTheEndHaltsMissingHalt _ (s.applyReset_running 0) hfits hout
  exact ⟨t, hstep, hhalt⟩

/-- Settles O44: the empty stream fits every memory, and the halt of the first step keeps the values of reset. -/
theorem emptyStreamHaltsAtOnce : Obligations.EmptyStreamHaltsAtOnce := by
  intro s
  obtain ⟨u, hstep, hhalt⟩ := step_applyReset_zero (s.loadCells [])
  obtain ⟨hip, hsp⟩ := hhalt.ip_sp_eq
  exact ⟨_, u, State.start_of_fits (Nat.zero_le _), hstep, hhalt.running, hhalt.haltCause, hip, hsp, hhalt.trace⟩

end Sys2Proof.Machine

/-! ### The decoder and the encoder are inverse to each other (O1, O2, O3) -/

namespace Sys2Proof

/-- The decoder reads an instruction exactly where the cells begin with its encoding, under a map that tells its opcode from
those looked for before it (R61, R62, R64). -/
theorem decode_eq_instr {m : OpcodeMap} {cells rest : List Int} {i : Instr} :
    decode m cells = .instr i rest ↔
      cells = encode m i ++ rest ∧ decodeOpcode m (m.value i.opcode) = some i.opcode := by
  constructor
  · intro h
    cases cells with
    | nil => cases h
    | cons v tail =>
      cases hd : decodeOpcode m v with
      | none => simp [decode, hd] at h
      | some op =>
        obtain rfl := value_of_decodeOpcode hd
        cases op with
        | psh =>
          cases tail with
          | nil => simp [decode, hd] at h
          | cons imm tail =>
            simp only [decode, hd] at h
            cases h
            exact ⟨rfl, hd⟩
        | _ =>
          simp only [decode, hd] at h
          cases h
          exact ⟨rfl, hd⟩
  · rintro ⟨rfl, hd⟩
    cases i <;> simp only [Instr.opcode, OpcodeMap.value] at hd <;> simp [decode, encode, hd]

/-- Under a legal map every instruction's cells decode to it, and the cells after them are left over. -/
theorem decode_encode {w : Nat} {m : OpcodeMap} (hm : m.wellFormed w = true) (i : Instr) (rest : List Int) :
    decode m (encode m i ++ rest) = .instr i rest :=
  decode_eq_instr.2 ⟨rfl, (decodeOpcode_eq_some hm).2 rfl⟩

/-- The values of a legal map lie in `[0, MAX]` (R6). -/
theorem OpcodeMap.value_bounds {w : Nat} {m : OpcodeMap} (hm : m.wellFormed w = true) (op : Opcode) :
    0 ≤ m.value op ∧ m.value op ≤ cellMax w := by
  simp only [OpcodeMap.wellFormed, Bool.and_eq_true, List.all_eq_true, decide_eq_true_eq] at hm
  refine hm.2 _ ?_
  rw [OpcodeMap.values_eq]
  exact List.mem_append_left _ (List.mem_map_of_mem (mem_opcodeList op))

/-- A width with a legal map is not 0: nine values are told apart. -/
theorem OpcodeMap.width_pos {w : Nat} {m : OpcodeMap} (hm : m.wellFormed w = true) : 1 ≤ w := by
  rcases Nat.eq_zero_or_pos w with rfl | hw
  · have hmax : cellMax 0 = 0 := rfl
    have hpsh := OpcodeMap.value_bounds hm .psh
    have hpop := OpcodeMap.value_bounds hm .pop
    cases (OpcodeMap.value_injective_and_unknown_ne hm).1 (show m.value .psh = m.value .pop by omega)
  · exact hw

theorem OpcodeMap.value_representable {w : Nat} {m : OpcodeMap} (hm : m.wellFormed w = true) (op : Opcode) :
    Representable w (m.value op) := by
  have hval := OpcodeMap.value_bounds hm op
  have hmin := cellMin_eq w
  have hmax := cellMax_nonneg w
  omega

/-- The cells of a well-formed instruction are cells of the width. -/
theorem encode_representable {w : Nat} {m : OpcodeMap} {i : Instr} (hm : m.wellFormed w = true)
    (hi : i.wellFormed w = true) : ∀ v ∈ encode m i, Representable w v := by
  have hop := OpcodeMap.value_representable hm i.opcode
  cases i with
  | psh imm => exact List.forall_mem_cons.2 ⟨hop, List.forall_mem_singleton.2 (of_decide_eq_true hi)⟩
  | _ => exact List.forall_mem_singleton.2 hop

/-- Settles O1: the five words by evaluation of the decoder. -/
theorem standardWordsDecode : Obligations.StandardWordsDecode :=
  ⟨by decide, by decide, by decide, by decide, by decide⟩

/-- Settles O2: the bits of each encoded cell denote the cell, and the cells decode to the instruction. -/
theorem decodeInvertsEncode : Obligations.DecodeInvertsEncode := by
  intro w m i rest hm hi
  have hbits : (encodeWords w m i).map cellOfBits = encode m i := by
    rw [encodeWords, List.map_map]
    exact (List.map_congr_left fun v hv =>
      cellOfBits_cellBits (OpcodeMap.width_pos hm) (encode_representable hm hi v hv)).trans (List.map_id _)
  rw [decodeWords, List.map_append, hbits, decode_encode hm]

/-- Settles O3: the cells before what is left over are the instruction's own. -/
theorem decodeAcceptsOnlyEncodings : Obligations.DecodeAcceptsOnlyEncodings :=
  fun _ _ _ _ h => (decode_eq_instr.1 h).1

end Sys2Proof

/-! ### The bytes of a stream (O5) -/

namespace Sys2Proof

@[simp] theorem bytesPerCell_mul_eight (n : Nat) : bytesPerCell (8 * n) = n := by
  unfold bytesPerCell
  omega

@[simp] theorem length_cellBytes (w : Nat) (v : Int) : (cellBytes w v).length = bytesPerCell w := by
  simp [cellBytes]

/-- The bytes of a word from byte `j` on, the least significant first, have the value of the word's bits from `8 j` on. -/
theorem foldr_bytes_from {w : Nat} (x : BitVec w) (j n : Nat) :
    ((List.range' j n).map fun k => x.extractLsb' (8 * k) 8).foldr (fun b acc => b.toNat + 256 * acc) 0 =
      x.toNat / 2 ^ (8 * j) % 2 ^ (8 * n) := by
  induction n generalizing j with
  | zero => simp [Nat.mod_one]
  | succ n ih =>
    have hbyte : (x.extractLsb' (8 * j) 8).toNat = x.toNat / 2 ^ (8 * j) % 256 := by
      simp [Nat.shiftRight_eq_div_pow]
    have hrest : x.toNat / 2 ^ (8 * (j + 1)) = x.toNat / 2 ^ (8 * j) / 256 := by
      rw [Nat.div_div_eq_div_mul, Nat.mul_succ, Nat.pow_add]
    have hpow : 2 ^ (8 * (n + 1)) = 256 * 2 ^ (8 * n) := by rw [Nat.mul_succ, Nat.pow_add, Nat.mul_comm]
    rw [List.range'_succ, List.map_cons, List.foldr_cons, ih, hbyte, hrest, hpow, Nat.mod_mul]

/-- A cell of whole bytes reads back from its bytes (R45). -/
theorem cellOfBytes_cellBytes {n : Nat} {v : Int} (hn : 1 ≤ n) (hv : Representable (8 * n) v) :
    cellOfBytes (8 * n) (cellBytes (8 * n) v) = v := by
  have hbits : BitVec.ofNat (8 * n) ((cellBits (8 * n) v).toNat / 2 ^ (8 * 0) % 2 ^ (8 * n)) = cellBits (8 * n) v := by
    apply BitVec.eq_of_toNat_eq
    simp
  rw [cellOfBytes, cellBytes, bytesPerCell_mul_eight, List.range_eq_range', foldr_bytes_from, hbits,
    cellOfBits_cellBits (by omega) hv]

theorem cellsOfBytes_flatMap {n : Nat} {cells : List Int} (hn : 1 ≤ n) (hcells : ∀ v ∈ cells, Representable (8 * n) v) :
    cellsOfBytes (8 * n) cells.length (cells.flatMap (cellBytes (8 * n))) = cells := by
  induction cells with
  | nil => rfl
  | cons v rest ih =>
    obtain ⟨hv, hrest⟩ := List.forall_mem_cons.1 hcells
    have hlen : (cellBytes (8 * n) v).length = bytesPerCell (8 * n) := length_cellBytes ..
    rw [List.length_cons, List.flatMap_cons, cellsOfBytes, List.take_left' hlen, List.drop_left' hlen, ih hrest,
      cellOfBytes_cellBytes hn hv]

/-- Settles O5: each cell's bytes stand at their place in the stream, and read back to the cell. -/
theorem cellBytesRoundTrip : Obligations.CellBytesRoundTrip := by
  refine fun n cells hn hcells => ⟨cellsOfBytes_flatMap hn hcells, fun v _ => ⟨by simp, fun k hk => ?_⟩⟩
  simp [cellBytes, List.getElem?_range hk]

end Sys2Proof

/-! ### The stream as a list of cells -/

namespace Sys2Proof.Machine

theorem Memory.length_of_slice {m : Memory} {i k : Nat} {cells : List Int} (h : m.slice i k = some cells) :
    cells.length = k := by
  induction k generalizing i cells with
  | zero => cases h; rfl
  | succ k ih =>
    obtain ⟨v, vs, rfl, -, hvs⟩ := Memory.slice_succ h
    rw [List.length_cons, ih hvs]

theorem Memory.slice_drop {m : Memory} {i j k : Nat} {cells : List Int} (h : m.slice i (j + k) = some cells) :
    m.slice (i + j) k = some (cells.drop j) := by
  induction j generalizing i cells with
  | zero => simpa using h
  | succ j ih =>
    rw [Nat.succ_add] at h
    obtain ⟨v, vs, rfl, -, hvs⟩ := Memory.slice_succ h
    rw [List.drop_succ_cons, ← ih hvs, Nat.succ_add_eq_add_succ]

/-- The cells of a list, read one by one, are a slice. -/
theorem Memory.slice_of_read {m : Memory} {i : Nat} {cells : List Int}
    (h : ∀ k < cells.length, m.read (i + k) = cells[k]?) : m.slice i cells.length = some cells := by
  induction cells generalizing i with
  | nil => rfl
  | cons v vs ih =>
    have hv : m.read i = some v := h 0 (Nat.zero_lt_succ _)
    have hvs : m.slice (i + 1) vs.length = some vs := by
      refine ih fun k hk => ?_
      have hread := h (k + 1) (Nat.succ_lt_succ hk)
      rwa [List.getElem?_cons_succ, Nat.add_comm k 1, ← Nat.add_assoc] at hread
    simp [Memory.slice, hv, hvs]

/-- A stream that is loaded is a list of cells. -/
theorem Memory.slice_of_loaded {m : Memory} {n : Nat} (h : m.Loaded n) : ∃ cells, m.slice 0 n = some cells := by
  have hread : ∀ k < n, m.read (0 + k) = ((List.range n).map fun j => (m.read j).getD 0)[k]? := by
    intro k hk
    obtain ⟨v, hv⟩ := Option.isSome_iff_exists.1 (h k hk)
    simp [hk, hv]
  refine ⟨(List.range n).map fun j => (m.read j).getD 0, ?_⟩
  simpa using Memory.slice_of_read (cells := (List.range n).map fun j => (m.read j).getD 0) (by simpa using hread)

theorem Memory.slice_fits {m : Memory} {w i k : Nat} {cells : List Int} (hm : m.Fits w)
    (h : m.slice i k = some cells) : ∀ v ∈ cells, Representable w v := by
  induction k generalizing i cells with
  | zero => cases h; simp
  | succ k ih =>
    obtain ⟨v, vs, rfl, hv, hvs⟩ := Memory.slice_succ h
    exact List.forall_mem_cons.2 ⟨Memory.read_fits hm hv, ih hvs⟩

/-! ### The fetch reads what the decoder reads in the stream -/

/-- What a cycle finds where the decoder reads `d` (R70 to R72, R102). -/
def fetchedOf : Decoded → Fetched
  | .instr i _ => .instr i
  | .streamEnd => .halt .missingHalt
  | .unknownOpcode _ => .halt .unknownOpcode
  | .operandMissing => .halt .missingHalt

theorem fetchedOf_eq_instr {d : Decoded} {i : Instr} : fetchedOf d = .instr i ↔ ∃ rest, d = .instr i rest := by
  cases d <;> simp [fetchedOf]

theorem fetchedOf_ne_fault (d : Decoded) (f : Fault) : fetchedOf d ≠ .fault f := by
  cases d <;> simp [fetchedOf]

theorem State.fetch_of_fetchCells {s : State} {cells : List Int} (h : s.fetchCells = .ok cells) :
    s.fetch = fetchedOf (decode s.cfg.opcodes cells) := by
  unfold State.fetch
  rw [h]
  dsimp only
  cases decode s.cfg.opcodes cells <;> rfl

theorem State.pastEnd_eq_false {s : State} (hge : 0 ≤ s.ip) (hlt : s.ip < s.n) : s.pastEnd = false := by
  rw [← Bool.not_eq_true, State.pastEnd_iff, not_not]
  exact ⟨hge, hlt⟩

/-- The decoder looks at no cell after the opcode cell of an instruction that is no PSH. -/
theorem fetchedOf_decode_cons {m : OpcodeMap} {v : Int} (h : decodeOpcode m v ≠ some .psh) (rest : List Int) :
    fetchedOf (decode m (v :: rest)) = fetchedOf (decode m [v]) := by
  cases hd : decodeOpcode m v with
  | none => simp [decode, hd]
  | some op => cases op <;> simp_all [decode, fetchedOf]

/-- The fetch finds what the decoder reads at the front of a slice of the stream from IP on, when the slice is not empty, and
reaches the stream's end where it ends in a truncated PSH. -/
theorem State.fetch_of_slice {s : State} {k : Nat} {cells : List Int} (hge : 0 ≤ s.ip) (hle : s.ip + (k + 1 : Nat) ≤ s.n)
    (hslice : s.imem.slice s.ip.toNat (k + 1) = some cells)
    (hend : decode s.cfg.opcodes cells = .operandMissing → s.ip + (k + 1 : Nat) = s.n) :
    s.fetch = fetchedOf (decode s.cfg.opcodes cells) := by
  obtain ⟨v, vs, rfl, hv, hvs⟩ := Memory.slice_succ hslice
  have hp : s.pastEnd = false := State.pastEnd_eq_false hge (by omega)
  by_cases hd : decodeOpcode s.cfg.opcodes v = some .psh
  · cases k with
    | zero =>
      cases hvs
      have hlast : s.ip + 1 = s.n := hend (by simp [decode, hd])
      refine State.fetch_of_fetchCells ?_
      simp [State.fetchCells, State.memRead, hp, hv, hlast]
    | succ k =>
      obtain ⟨imm, vs, rfl, himm, -⟩ := Memory.slice_succ hvs
      have hnext : (s.ip + 1).toNat = s.ip.toNat + 1 := by omega
      have hlt : s.ip + 1 < s.n := by omega
      have hcells : s.fetchCells = .ok [v, imm] := by
        simp [State.fetchCells, State.memRead, hp, hv, hd, hlt, hnext, himm]
      rw [State.fetch_of_fetchCells hcells]
      simp [decode, hd, fetchedOf]
  · have hcells : s.fetchCells = .ok [v] := by simp [State.fetchCells, State.memRead, hp, hv, hd]
    rw [State.fetch_of_fetchCells hcells, fetchedOf_decode_cons hd vs]

/-- The fetch finds what the decoder reads in the stream from IP on. -/
theorem State.fetch_of_stream {s : State} {cells : List Int} (hge : 0 ≤ s.ip) (hle : s.ip ≤ s.n)
    (hslice : s.imem.slice 0 s.streamLen = some cells) :
    s.fetch = fetchedOf (decode s.cfg.opcodes (cells.drop s.ip.toNat)) := by
  have hn := s.n_eq
  rcases hle.lt_or_eq with hlt | heq
  · obtain ⟨k, hk⟩ : ∃ k, s.streamLen = s.ip.toNat + (k + 1) := ⟨s.streamLen - s.ip.toNat - 1, by omega⟩
    rw [hk] at hslice
    have hdrop := Memory.slice_drop hslice
    rw [Nat.zero_add] at hdrop
    exact State.fetch_of_slice hge (by omega) hdrop fun _ => by omega
  · have hlen := Memory.length_of_slice hslice
    rw [List.drop_eq_nil_of_le (by omega)]
    exact State.fetch_of_pastEnd (State.pastEnd_iff.2 (by omega))

/-- Under the invariant the fetch reads in a list of cells of the machine's width. -/
theorem State.Inv.fetch_eq {s : State} (hs : s.Inv) :
    ∃ cells, s.imem.slice 0 s.streamLen = some cells ∧ (∀ v ∈ cells, Representable s.cfg.cellW v) ∧
      s.fetch = fetchedOf (decode s.cfg.opcodes (cells.drop s.ip.toNat)) := by
  obtain ⟨cells, hslice⟩ := Memory.slice_of_loaded hs.streamLoaded
  exact ⟨cells, hslice, Memory.slice_fits hs.imemFits hslice, State.fetch_of_stream hs.ipNonneg hs.ipLe hslice⟩

theorem step_of_fetch_instr {s : State} {i : Instr} (hr : s.running = true) (hn : s.n ≤ s.cfg.imemDepth)
    (hf : s.fetch = .instr i) : step s = exec i s := by
  simp [step, hr, hn, hf]

end Sys2Proof.Machine

namespace Sys2Proof

theorem length_encode (m : OpcodeMap) (i : Instr) : (encode m i).length = i.opcode.length := by
  cases i <;> rfl

theorem Opcode.length_pos (op : Opcode) : 0 < op.length := by cases op <;> decide

/-- An instruction that the decoder reads is as long as its opcode says. -/
theorem length_of_decode {m : OpcodeMap} {cells rest : List Int} {i : Instr} (h : decode m cells = .instr i rest) :
    cells.length = i.opcode.length + rest.length ∧ cells.drop i.opcode.length = rest := by
  rw [(decode_eq_instr.1 h).1, List.length_append, length_encode]
  exact ⟨rfl, List.drop_left' (length_encode m i)⟩

end Sys2Proof

namespace Sys2Proof.Machine

/-- Settles O8: the slice that the instruction's length names ends in no truncated PSH. -/
theorem stepRunsTheDecodedInstruction : Obligations.StepRunsTheDecodedInstruction := by
  intro s i cells hs _ hle hslice hdec
  obtain ⟨k, hk⟩ := Nat.exists_eq_succ_of_ne_zero i.opcode.length_pos.ne'
  rw [hk] at hle hslice
  refine step_of_fetch_instr hs.running hs.streamFits ?_
  rw [State.fetch_of_slice hs.ipNonneg hle hslice (by simp [hdec]), hdec]
  rfl

/-- Settles O10: the fetch meets the truncation before the push could look at the stack. -/
theorem truncatedPshHaltsMissingHalt : Obligations.TruncatedPshHaltsMissingHalt := by
  intro s hs hlast hread
  obtain ⟨-, -, -, -, -, hm⟩ := Config.bounds hs.config
  have hpsh : decodeOpcode s.cfg.opcodes s.cfg.opcodes.psh = some .psh := (decodeOpcode_eq_some hm).2 rfl
  have hslice : s.imem.slice s.ip.toNat 1 = some [s.cfg.opcodes.psh] := by simp [Memory.slice, hread]
  have hfetch := State.fetch_of_slice hs.ipNonneg hlast.le hslice fun _ => hlast
  simp only [decode, hpsh, fetchedOf] at hfetch
  exact ⟨_, step_of_fetch_halt hs.running hs.streamFits hfetch, s.raiseHalt_haltsInto _⟩

end Sys2Proof.Machine

/-! ### The frame of an instruction that completes (O13, O16, O34), and its causes (O17) -/

namespace Sys2Proof.Machine

/-- A case split over the instructions that takes the four binary operations as one case. -/
theorem forall_instr_of_shapes {P : Instr → Prop} (psh : ∀ imm, P (.psh imm)) (pop : P .pop)
    (binary : ∀ op : ArithOp, P op.instr) (set : P .set) (hlt : P .hlt) (i : Instr) : P i := by
  cases i with
  | psh imm => exact psh imm
  | pop => exact pop
  | add => exact binary .add
  | sub => exact binary .sub
  | mul => exact binary .mul
  | div => exact binary .div
  | set => exact set
  | hlt => exact hlt

@[simp] theorem ArithOp.length_opcode_instr (op : ArithOp) : op.instr.opcode.length = 1 := by
  cases op <;> rfl

/-- What an instruction that completes adds to SP (R106). -/
def depthChange : Instr → Int
  | .psh _ => 1
  | .pop | .add | .sub | .mul | .div | .set | .hlt => -1

@[simp] theorem depthChange_instr (op : ArithOp) : depthChange op.instr = -1 := by
  cases op <;> rfl

/-- The frame of a commit, whatever integer is committed (R110). -/
theorem committed_completesInto (op : ArithOp) (b a x : Int) (s : State) :
    s.CompletesInto (committed op b a x s) 1 (-1) [.computed op b a x] where
  fixed := by constructor <;> rfl
  running := rfl
  haltCause := rfl
  ip := rfl
  sp := rfl
  trace := rfl

/-- An instruction that completes moves IP by its length and SP by its change of depth, and adds at most one record. -/
theorem effect_completesInto {i : Instr} {s t : State} (h : effect i s = .ok t) :
    ∃ records, s.CompletesInto t i.opcode.length (depthChange i) records ∧ records.length ≤ 1 := by
  induction i using forall_instr_of_shapes with
  | psh imm => exact ⟨[], pshEffect_completesInto h, Nat.zero_le 1⟩
  | pop =>
    obtain ⟨v, ⟨-, hv⟩, -⟩ := popEffect_ok.1 h
    exact ⟨[.popped v], (popEffect_completesInto hv h).1, le_rfl⟩
  | binary op =>
    rw [effect_instr] at h
    obtain ⟨a, b, -, -, rfl⟩ := binaryEffect_ok.1 h
    rw [ArithOp.length_opcode_instr, depthChange_instr]
    exact ⟨_, committed_completesInto .., le_rfl⟩
  | set => cases h
  | hlt => cases h

theorem State.sameFixed_refl (s : State) : s.SameFixed s := by constructor <;> rfl

/-- An instruction that answers a next state has completed with its frame, or has halted with the frame of R146. -/
theorem exec_next_frame {i : Instr} {s t : State} (h : exec i s = .next t) :
    (∃ records, s.CompletesInto t i.opcode.length (depthChange i) records ∧ records.length ≤ 1) ∨
      ∃ c, effect i s = .error (.halt c) ∧ s.HaltsInto t c := by
  rcases exec_next.1 h with hok | ⟨c, hc, rfl⟩
  · exact .inl (effect_completesInto hok)
  · exact .inr ⟨c, hc, s.raiseHalt_haltsInto c⟩

/-- Settles O34: a held state, the frame of an instruction that completes and the frame of a halt each keep what is fixed. -/
theorem stepKeepsTheFixedState : Obligations.StepKeepsTheFixedState := by
  intro s t h
  rcases step_next.1 h with ⟨-, rfl⟩ | ⟨-, -, ⟨i, -, hex⟩ | ⟨c, -, rfl⟩⟩
  · exact t.sameFixed_refl
  · rcases exec_next_frame hex with ⟨records, hframe, -⟩ | ⟨c, -, hframe⟩
    · exact hframe.fixed
    · exact hframe.fixed
  · exact (s.raiseHalt_haltsInto c).fixed

theorem State.SameFixed.n_eq {s t : State} (h : s.SameFixed t) : t.n = s.n :=
  congrArg Nat.cast h.streamLen

/-- Settles O13: the two ends of an instruction, and the halts that the fetch finds. -/
theorem stepCompletesOrHalts : Obligations.StepCompletesOrHalts := by
  intro s t _ hr h
  rcases step_next.1 h with ⟨hstop, -⟩ | ⟨-, -, ⟨i, -, hex⟩ | ⟨c, -, rfl⟩⟩
  · simp [hr] at hstop
  · rcases exec_next_frame hex with ⟨records, hframe, hlen⟩ | ⟨c, -, hframe⟩
    · refine .inl ⟨_, _, records, hframe, ?_, hlen⟩
      cases i with
      | psh imm => exact .inr rfl
      | _ => exact .inl rfl
    · exact .inr ⟨c, hframe⟩
  · exact .inr ⟨c, s.raiseHalt_haltsInto c⟩

/-- Settles O16: RUNNING tells which of the two ends of an instruction a state is. -/
theorem depthAccounting : Obligations.DepthAccounting := by
  intro i s t hr h
  rcases exec_next_frame h with ⟨records, hframe, -⟩ | ⟨c, -, hframe⟩
  · refine ⟨fun ht => ?_, fun _ => ?_⟩
    · simp [hframe.running, hr] at ht
    · cases i <;> exact hframe.sp
  · exact ⟨fun _ => hframe.ip_sp_eq.2, fun ht => by simp [hframe.running] at ht⟩

/-- The causes an instruction can raise (R142). -/
def causesOf : Instr → List HaltCause
  | .psh _ => [.stackOverflow, .missingHalt]
  | .pop => [.stackUnderflow]
  | .add | .sub | .mul => [.stackUnderflow, .arithmeticOverflow]
  | .div => [.stackUnderflow, .arithmeticOverflow, .divisionByZero]
  | .set => [.unimplementedOpcode]
  | .hlt => [.normal]

/-- ADD, SUB and MUL have no hazard but the overflow (R111, R113, R115). -/
theorem ArithOp.hazard_mem_causesOf {op : ArithOp} {w : Nat} {b a : Int} {c : HaltCause} (h : op.hazard w b a = some c) :
    c ∈ causesOf op.instr := by
  cases op with
  | add | sub | mul =>
    obtain rfl := Option.some.inj (Option.ite_none_right_eq_some.1 h).2
    decide
  | div => rcases ArithOp.hazard_cause h with rfl | rfl <;> decide

theorem underflow_mem_causesOf (op : ArithOp) : HaltCause.stackUnderflow ∈ causesOf op.instr := by
  cases op <;> decide

theorem effect_halt_mem_causesOf {i : Instr} {s : State} {c : HaltCause} (h : effect i s = .error (.halt c)) :
    c ∈ causesOf i := by
  induction i using forall_instr_of_shapes with
  | psh imm => rcases pshEffect_halt.1 h with ⟨-, rfl⟩ | ⟨-, -, rfl⟩ <;> simp [causesOf]
  | pop => simp [causesOf, (popEffect_halt.1 h).2]
  | binary op =>
    rw [effect_instr] at h
    rcases binaryEffect_halt.1 h with ⟨-, rfl⟩ | ⟨a, b, -, -, hz⟩
    · exact underflow_mem_causesOf op
    · exact ArithOp.hazard_mem_causesOf hz
  | set => cases h; simp [causesOf]
  | hlt => cases h; simp [causesOf]

/-- Settles O17: the codes of each instruction's causes are those of R142's table. -/
theorem causesByInstruction : Obligations.CausesByInstruction := by
  intro i s t hr h ht
  have hmem : t.haltCause.code ∈ (causesOf i).map HaltCause.code :=
    List.mem_map_of_mem (effect_halt_mem_causesOf (effect_of_exec_halted hr h ht))
  cases i <;> exact hmem

end Sys2Proof.Machine

/-! ### The pre-decoded stream and the fetch (O6, O7) -/

namespace Sys2Proof

/-- The entries of the walk of R75 from index `idx` on, where the decoder reads `d` there. -/
def entriesOf (m : OpcodeMap) (idx : Nat) : Decoded → List Predecoded
  | .instr i rest => .instr idx i :: predecode m (idx + i.opcode.length) rest
  | .streamEnd => []
  | .unknownOpcode v => [.unknown idx v]
  | .operandMissing => [.pshTruncated idx]

/-- The walk decodes one instruction at a time. -/
theorem predecode_eq (m : OpcodeMap) (idx : Nat) (cells : List Int) :
    predecode m idx cells = entriesOf m idx (decode m cells) := by
  rw [predecode.eq_def]
  cases cells with
  | nil => rfl
  | cons v rest =>
    cases hd : decodeOpcode m v with
    | none => simp [decode, hd, entriesOf]
    | some op =>
      cases op with
      | psh => cases rest <;> simp [decode, hd, entriesOf, Instr.opcode, Opcode.length]
      | _ => simp [decode, hd, entriesOf, Instr.opcode, Opcode.length]

theorem decode_eq_streamEnd {m : OpcodeMap} {cells : List Int} : decode m cells = .streamEnd ↔ cells = [] := by
  cases cells with
  | nil => simp [decode]
  | cons v rest =>
    cases hd : decodeOpcode m v with
    | none => simp [decode, hd]
    | some op =>
      cases op with
      | psh => cases rest <;> simp [decode, hd]
      | _ => simp [decode, hd]

theorem predecode_of_decode {m : OpcodeMap} {cells rest : List Int} {i : Instr} (idx : Nat)
    (h : decode m cells = .instr i rest) :
    predecode m idx cells = .instr idx i :: predecode m (idx + i.opcode.length) rest := by
  rw [predecode_eq, h]
  rfl

/-- The walk over cells that are there begins with an entry at their first index. -/
theorem exists_predecode_eq_cons (m : OpcodeMap) (idx : Nat) {cells : List Int} (h : cells ≠ []) :
    ∃ e tail, predecode m idx cells = e :: tail ∧ e.index = idx := by
  rw [predecode_eq]
  cases hd : decode m cells with
  | streamEnd => exact absurd (decode_eq_streamEnd.1 hd) h
  | instr i rest => exact ⟨_, _, rfl, rfl⟩
  | unknownOpcode v => exact ⟨_, _, rfl, rfl⟩
  | operandMissing => exact ⟨_, _, rfl, rfl⟩

/-- An entry of the walk stands at an index inside the cells, and the walk from there on begins with it and is part of the
whole. -/
theorem exists_drop_of_mem_predecode {m : OpcodeMap} {idx : Nat} {cells : List Int} {e : Predecoded}
    (he : e ∈ predecode m idx cells) :
    ∃ k tail, k < cells.length ∧ e.index = idx + k ∧ predecode m e.index (cells.drop k) = e :: tail ∧
      tail ⊆ predecode m idx cells := by
  induction hlen : cells.length using Nat.strong_induction_on generalizing idx cells with
  | _ len ih =>
    have hne : cells ≠ [] := by
      rintro rfl
      cases he
    obtain ⟨e₀, tail, hwalk, hidx⟩ := exists_predecode_eq_cons m idx hne
    rw [hwalk] at he ⊢
    rcases List.mem_cons.1 he with rfl | htail
    · exact ⟨0, tail, hlen ▸ List.length_pos_iff.2 hne, hidx, hidx.symm ▸ hwalk, List.subset_cons_self ..⟩
    · rw [predecode_eq] at hwalk
      cases hd : decode m cells with
      | instr i rest =>
        rw [hd] at hwalk
        obtain ⟨rfl, rfl⟩ := List.cons.inj hwalk
        obtain ⟨hsum, hdrop⟩ := length_of_decode hd
        have hpos := i.opcode.length_pos
        obtain ⟨k, tail', hk, hek, hwalk', hsub⟩ := ih rest.length (by omega) htail rfl
        refine ⟨i.opcode.length + k, tail', by omega, by omega, ?_, List.Subset.trans hsub (List.subset_cons_self ..)⟩
        rwa [← List.drop_drop, hdrop]
      | streamEnd => exact absurd (decode_eq_streamEnd.1 hd) hne
      | unknownOpcode v =>
        rw [hd] at hwalk
        obtain ⟨-, rfl⟩ := List.cons.inj hwalk
        exact absurd htail List.not_mem_nil
      | operandMissing =>
        rw [hd] at hwalk
        obtain ⟨-, rfl⟩ := List.cons.inj hwalk
        exact absurd htail List.not_mem_nil

end Sys2Proof

namespace Sys2Proof.Machine

/-- What a cycle finds at an entry of the walk (R75). -/
def fetchedAt : Predecoded → Fetched
  | .instr _ i => .instr i
  | .pshTruncated _ => .halt .missingHalt
  | .unknown _ _ => .halt .unknownOpcode

/-- The entry a walk begins with says what the decoder reads there. -/
theorem fetchedOf_decode_eq_fetchedAt {m : OpcodeMap} {idx : Nat} {cells : List Int} {e : Predecoded}
    {tail : List Predecoded} (h : predecode m idx cells = e :: tail) : fetchedOf (decode m cells) = fetchedAt e := by
  rw [predecode_eq] at h
  cases hd : decode m cells with
  | streamEnd => simp [hd, entriesOf] at h
  | _ =>
    rw [hd] at h
    cases h
    rfl

/-- The entry at IP says what the fetch finds. -/
theorem State.fetch_of_mem_predecode {s : State} {cells : List Int} {e : Predecoded} (hge : 0 ≤ s.ip) (hle : s.ip ≤ s.n)
    (hslice : s.imem.slice 0 s.streamLen = some cells) (he : e ∈ predecode s.cfg.opcodes 0 cells)
    (hip : (e.index : Int) = s.ip) : s.fetch = fetchedAt e := by
  obtain ⟨k, tail, -, hk, hwalk, -⟩ := exists_drop_of_mem_predecode he
  have hdrop : s.ip.toNat = k := by omega
  rw [State.fetch_of_stream hge hle hslice, hdrop, fetchedOf_decode_eq_fetchedAt hwalk]

/-- Settles O6: the walk from the entry on begins with what the decoder reads there, which is what the fetch finds. -/
theorem predecodedEntryIsTheStep : Obligations.PredecodedEntryIsTheStep := by
  intro s cells hs hslice e he hip
  have hfetch := State.fetch_of_mem_predecode hs.ipNonneg hs.ipLt.le hslice he hip
  cases e with
  | instr idx i => exact step_of_fetch_instr hs.running hs.streamFits hfetch
  | pshTruncated idx => exact step_of_fetch_halt hs.running hs.streamFits hfetch
  | unknown idx v => exact step_of_fetch_halt hs.running hs.streamFits hfetch

/-- An index at which the walk of R75 has an entry, or the stream's end. -/
def OnWalk (m : OpcodeMap) (cells : List Int) (ip : Int) : Prop :=
  ip = cells.length ∨ ∃ e ∈ predecode m 0 cells, (e.index : Int) = ip

theorem onWalk_zero (m : OpcodeMap) (cells : List Int) : OnWalk m cells 0 := by
  by_cases h : cells = []
  · exact .inl (by simp [h])
  · obtain ⟨e, tail, hwalk, hidx⟩ := exists_predecode_eq_cons m 0 h
    exact .inr ⟨e, by simp [hwalk], by simp [hidx]⟩

/-- From an instruction on the walk, its length leads to the next entry or to the end (R66). -/
theorem OnWalk.advance {m : OpcodeMap} {cells rest : List Int} {ip : Int} {i : Instr} (h : OnWalk m cells ip)
    (hd : decode m (cells.drop ip.toNat) = .instr i rest) : OnWalk m cells (ip + i.opcode.length) := by
  rcases h with rfl | ⟨e, he, rfl⟩
  · simp [decode] at hd
  · obtain ⟨k, tail, hlt, hk, hwalk, hsub⟩ := exists_drop_of_mem_predecode he
    obtain rfl : e.index = k := by omega
    rw [Int.toNat_natCast] at hd
    obtain ⟨hsum, -⟩ := length_of_decode hd
    rw [List.length_drop] at hsum
    rw [predecode_of_decode _ hd] at hwalk
    obtain ⟨-, rfl⟩ := List.cons.inj hwalk
    by_cases hrest : rest = []
    · rw [hrest, List.length_nil] at hsum
      exact .inl (by omega)
    · obtain ⟨e', tail', hnext, hidx⟩ := exists_predecode_eq_cons m (e.index + i.opcode.length) hrest
      exact .inr ⟨e', hsub (by simp [hnext]), by omega⟩

/-- A step from a state on the walk ends on the walk. -/
theorem OnWalk.step {s t : State} {cells : List Int} (hs : s.Inv) (hslice : s.imem.slice 0 s.streamLen = some cells)
    (hwalk : OnWalk s.cfg.opcodes cells s.ip) (h : step s = .next t) : OnWalk s.cfg.opcodes cells t.ip := by
  rcases step_next.1 h with ⟨-, rfl⟩ | ⟨-, -, ⟨i, hf, hex⟩ | ⟨c, -, rfl⟩⟩
  · exact hwalk
  · rcases exec_next_ip hex with ⟨-, hip⟩ | ⟨-, hip⟩
    · rw [State.fetch_of_stream hs.ipNonneg hs.ipLe hslice] at hf
      obtain ⟨rest, hd⟩ := fetchedOf_eq_instr.1 hf
      rw [hip]
      exact hwalk.advance hd
    · rwa [hip]
  · exact hwalk

/-- Settles O7: the parameters and the stream stay, so that the walk after the step is the walk before it. -/
theorem ipStaysOnTheWalk : Obligations.IpStaysOnTheWalk := by
  intro s t cells hs hslice hwalk h
  have hfixed := stepKeepsTheFixedState s t h
  have hn : s.n = cells.length := by rw [s.n_eq, Memory.length_of_slice hslice]
  rw [hn] at hwalk
  rw [hfixed.n_eq, hfixed.cfg, hn]
  exact OnWalk.step hs hslice hwalk h

end Sys2Proof.Machine

/-! ### The invariant (O38, O39, O43, O46) -/

namespace Sys2Proof.Machine

/-- The stack RAM's part of the invariant: canonical, inside its bound, of cells, every live entry written (R27, R29). -/
structure StackInForm (cfg : Config) (m : Memory) (sp : Int) : Prop where
  wf : m.wf
  below : m.Below cfg.stackCapacity
  fits : m.Fits cfg.cellW
  written : m.Loaded (sp + 1).toNat

theorem State.Inv.stackInForm {s : State} (hs : s.Inv) : StackInForm s.cfg s.stk s.sp :=
  ⟨hs.stkWf, hs.stkBelow, hs.stkFits, hs.liveWritten⟩

/-- A live entry holds a value (R29). -/
theorem StackInForm.exists_read {cfg : Config} {m : Memory} {sp i : Int} (h : StackInForm cfg m sp) (hge : 0 ≤ i)
    (hle : i ≤ sp) : ∃ v, m.read i.toNat = some v ∧ Representable cfg.cellW v := by
  obtain ⟨v, hv⟩ := Option.isSome_iff_exists.1 (h.written i.toNat (by omega))
  exact ⟨v, hv, Memory.read_fits h.fits hv⟩

theorem StackInForm.lower {cfg : Config} {m : Memory} {sp : Int} (h : StackInForm cfg m sp) :
    StackInForm cfg m (sp - 1) :=
  ⟨h.wf, h.below, h.fits, fun j hj => h.written j (by omega)⟩

/-- A write of a cell to a live entry, or to the entry above the top, which is then live. -/
theorem StackInForm.write {cfg : Config} {m : Memory} {sp i v : Int} (h : StackInForm cfg m sp) (hge : 0 ≤ i)
    (hlt : i < cfg.stackCapacity) (hv : Representable cfg.cellW v) (hsp : i ≤ sp + 1) :
    StackInForm cfg (m.write i.toNat v) (max sp i) where
  wf := Memory.write_wf h.wf _ _
  below := Memory.write_below h.below (by omega) v
  fits := Memory.write_fits h.fits hv
  written := by
    intro j hj
    rw [Memory.read_write]
    split
    · rfl
    · exact h.written j (by omega)

theorem RegFile.fits_iff {rf : RegFile} {w : Nat} : rf.Fits w ↔
    (Representable w rf.a ∧ Representable w rf.b ∧ Representable w rf.c ∧ Representable w rf.d ∧ Representable w rf.e ∧
      Representable w rf.f) ∧ Representable w rf.ip ∧ Representable w rf.sp := by
  simp [RegFile.Fits, RegFile.values, and_assoc]

/-- IP and SP inside the bounds of R24 and R27 are cells under legal parameters (R6, R20). -/
theorem ip_sp_representable {cfg : Config} {ip sp : Int} (hcfg : cfg.wellFormed = true) (hip : 0 ≤ ip)
    (hip' : ip ≤ cfg.imemDepth) (hsp : -1 ≤ sp) (hsp' : sp < cfg.stackCapacity) :
    Representable cfg.cellW ip ∧ Representable cfg.cellW sp := by
  obtain ⟨-, -, hcap, -, hdepth, -⟩ := Config.bounds hcfg
  have hmin := cellMin_eq cfg.cellW
  have hmax := cellMax_nonneg cfg.cellW
  omega

/-- A completed instruction keeps the invariant, when it keeps IP inside the stream, SP inside the stack, the stack in form,
and records cells. -/
theorem State.Inv.of_completesInto {s t : State} {dIp dSp : Int} {records : List OutRecord} (hs : s.Inv)
    (h : s.CompletesInto t dIp dSp records) (hip : 0 ≤ t.ip ∧ t.ip ≤ s.n) (hsp : -1 ≤ t.sp ∧ t.sp < s.cfg.stackCapacity)
    (hstk : StackInForm s.cfg t.stk t.sp) (hrecords : TraceFits records s.cfg.cellW) : t.Inv := by
  obtain ⟨hcfg, himem, hlen, ha, hb, hc, hd, he, hf⟩ := h.fixed
  have hn : t.n = s.n := h.fixed.n_eq
  have hcells := ip_sp_representable hs.config hip.1 (hip.2.trans hs.streamFits) hsp.1 hsp.2
  have hregs := (RegFile.fits_iff.1 hs.regsFit).1
  rw [← ha, ← hb, ← hc, ← hd, ← he, ← hf] at hregs
  exact {
    config := by rw [hcfg]; exact hs.config
    streamFits := by rw [hn, hcfg]; exact hs.streamFits
    streamLoaded := by rw [himem, hlen]; exact hs.streamLoaded
    imemWf := by rw [himem]; exact hs.imemWf
    imemBelow := by rw [himem, hcfg]; exact hs.imemBelow
    ipNonneg := hip.1
    ipLe := by rw [hn]; exact hip.2
    spGe := hsp.1
    spLt := by rw [hcfg]; exact hsp.2
    stkWf := hstk.wf
    stkBelow := by rw [hcfg]; exact hstk.below
    liveWritten := hstk.written
    regsFit := by rw [hcfg]; exact RegFile.fits_iff.2 ⟨hregs, hcells⟩
    stkFits := by rw [hcfg]; exact hstk.fits
    imemFits := by rw [himem, hcfg]; exact hs.imemFits
    traceFits := by rw [h.trace, hcfg]; exact List.forall_mem_append.2 ⟨hs.traceFits, hrecords⟩
    causeZero := by rw [h.running, h.haltCause]; exact hs.causeZero }

/-- A halt writes nothing the invariant speaks of but HALT_CAUSE, which is free once RUNNING is 0. -/
theorem State.Inv.raiseHalt {s : State} (hs : s.Inv) (c : HaltCause) : (s.raiseHalt c).Inv :=
  { hs with causeZero := nofun }

/-- The immediate of a PSH that the fetch finds is a cell of the stream. -/
theorem State.Inv.immediate_representable {s : State} {imm : Int} (hs : s.Inv) (hf : s.fetch = .instr (.psh imm)) :
    Representable s.cfg.cellW imm := by
  obtain ⟨cells, -, hcells, hfetch⟩ := hs.fetch_eq
  obtain ⟨rest, hd⟩ := fetchedOf_eq_instr.1 (hfetch.symm.trans hf)
  refine hcells imm (List.mem_of_mem_drop (i := s.ip.toNat) ?_)
  rw [(decode_eq_instr.1 hd).1]
  simp [encode]

/-- An operation whose hazard check passes has a result that is a cell (R120). -/
theorem ArithOp.result_representable {op : ArithOp} {w : Nat} {b a : Int} (hb : Representable w b)
    (ha : Representable w a) (h : op.hazard w b a = none) : Representable w (op.result b a) := by
  have h0 : op = .div → a ≠ 0 := by
    rintro rfl rfl
    simp [ArithOp.hazard] at h
  by_contra hno
  rw [ArithOp.hazard_eq hb ha h0, if_pos hno] at h
  cases h

/-- An instruction that completes leaves the stack in form and records cells. -/
theorem State.Inv.effect_stack {s t : State} {i : Instr} (hs : s.Inv) (hf : s.fetch = .instr i) (h : effect i s = .ok t) :
    ∃ records, s.CompletesInto t i.opcode.length (depthChange i) records ∧ (-1 ≤ t.sp ∧ t.sp < s.cfg.stackCapacity) ∧
      StackInForm s.cfg t.stk t.sp ∧ TraceFits records s.cfg.cellW := by
  have hform := hs.stackInForm
  have hge := hs.spGe
  have hlt := hs.spLt
  induction i using forall_instr_of_shapes with
  | psh imm =>
    have hframe := pshEffect_completesInto h
    obtain ⟨-, ⟨-, hnonneg, hroom⟩, rfl⟩ := pshEffect_ok.1 h
    have hwrite := hform.write hnonneg hroom (hs.immediate_representable hf) le_rfl
    rw [max_eq_right (by omega)] at hwrite
    exact ⟨[], hframe, by rw [hframe.sp]; omega, hwrite, List.forall_mem_nil _⟩
  | pop =>
    obtain ⟨v, ⟨⟨hnonneg, -⟩, hv⟩, -⟩ := popEffect_ok.1 h
    obtain ⟨hframe, hstk⟩ := popEffect_completesInto hv h
    have hcell := Memory.read_fits hs.stkFits hv
    refine ⟨_, hframe, by rw [hframe.sp]; omega, ?_,
      List.forall_mem_singleton.2 (List.forall_mem_singleton.2 hcell)⟩
    rw [hstk, hframe.sp]
    exact hform.lower
  | binary op =>
    rw [effect_instr] at h
    obtain ⟨a, b, ⟨⟨hdepth, -⟩, ha, hb⟩, ⟨-, hz⟩, rfl⟩ := binaryEffect_ok.1 h
    have hacell := Memory.read_fits hs.stkFits ha
    have hbcell := Memory.read_fits hs.stkFits hb
    have hcell := ArithOp.result_representable hbcell hacell hz
    have hframe := committed_completesInto op b a (op.result b a) s
    have hwrite := hform.lower.write (i := s.sp - 1) (by omega) (by omega) hcell (by omega)
    rw [max_self] at hwrite
    rw [ArithOp.length_opcode_instr, depthChange_instr]
    exact ⟨_, hframe, by rw [hframe.sp]; omega, hwrite, by
      simpa [TraceFits, OutRecord.values] using ⟨hbcell, hacell, hcell⟩⟩
  | set => cases h
  | hlt => cases h

/-- Settles O38: the fetch bounds IP after an instruction by the stream's end, and the instruction keeps the stack in form. -/
theorem stepKeepsTheInvariant : Obligations.StepKeepsTheInvariant := by
  intro s t hs h
  rcases step_next.1 h with ⟨-, rfl⟩ | ⟨-, -, ⟨i, hf, hex⟩ | ⟨c, -, rfl⟩⟩
  · exact hs
  · rcases exec_next.1 hex with hok | ⟨c, -, rfl⟩
    · obtain ⟨records, hframe, hsp, hstk, hrecords⟩ := hs.effect_stack hf hok
      obtain ⟨⟨hge, hle⟩, -⟩ := State.fetch_instr hf
      exact hs.of_completesInto hframe (by rw [hframe.ip]; omega) hsp hstk hrecords
    · exact hs.raiseHalt c
  · exact hs.raiseHalt c

/-- A state in form that is reset with an N its stream reaches meets the invariant (R171). -/
theorem State.applyReset_inv {s : State} {n : Nat} (hs : s.HostInForm) (hn : n ≤ s.cfg.imemDepth)
    (hloaded : s.imem.Loaded n) : (s.applyReset n).Inv ∧ (s.applyReset n).n = n := by
  obtain ⟨-, hcap, -, -, hdepth, -⟩ := Config.bounds hs.config
  have hport : n % 2 ^ s.cfg.cellW = n := by
    have hpow : 2 ^ (s.cfg.cellW - 1) ≤ 2 ^ s.cfg.cellW := Nat.pow_le_pow_right two_pos (Nat.sub_le ..)
    unfold cellMax at hdepth
    exact Nat.mod_eq_of_lt (by omega)
  have hlen : (s.applyReset n).n = n := by rw [State.applyReset_n, hport]
  have hmin := cellMin_eq s.cfg.cellW
  have hmax := cellMax_nonneg s.cfg.cellW
  refine ⟨?_, hlen⟩
  exact {
    config := hs.config
    streamFits := by rw [hlen]; exact Int.ofNat_le.2 hn
    streamLoaded := by simpa [hport] using hloaded
    imemWf := hs.imemWf
    imemBelow := hs.imemBelow
    ipNonneg := le_rfl
    ipLe := by rw [hlen]; exact Int.natCast_nonneg n
    spGe := le_rfl
    spLt := by simp only [State.applyReset_sp, State.applyReset_cfg]; omega
    stkWf := List.Pairwise.nil
    stkBelow := List.forall_mem_nil _
    liveWritten := fun j hj => absurd hj (Nat.not_lt_zero j)
    regsFit := by
      refine RegFile.fits_iff.2 ?_
      simp only [State.applyReset_regs, State.applyReset_cfg, State.reset]
      omega
    stkFits := List.forall_mem_nil _
    imemFits := hs.imemFits
    traceFits := List.forall_mem_nil _
    causeZero := fun _ => rfl }

/-- Settles O39: the reset state is the reset of itself, with nothing loaded. -/
theorem resetMeetsTheInvariant : Obligations.ResetMeetsTheInvariant := by
  have hform : State.reset.HostInForm := by constructor <;> decide
  exact (State.applyReset_inv (n := 0) hform (Nat.zero_le _) (fun j hj => absurd hj (Nat.not_lt_zero j))).1

/-- Settles O43: the loaded memory is in form, and holds the stream's cells at their indices. -/
theorem startLoadsTheStream : Obligations.StartLoadsTheStream := by
  intro s cells hs hcells hfits
  have hread : ∀ k : Nat, k < cells.length → (s.imem.writeAll 0 cells).read k = cells[k]? := by
    intro k hk
    have := Memory.read_writeAll (m := s.imem) 0 cells hk
    rwa [Nat.zero_add, ← List.getElem?_eq_getElem hk] at this
  have hloaded : (s.loadCells cells).HostInForm := {
    config := hs.config
    imemWf := Memory.writeAll_wf hs.imemWf 0 cells
    imemBelow := Memory.writeAll_below hs.imemBelow cells (by simpa using hfits)
    imemFits := Memory.writeAll_fits hs.imemFits 0 hcells }
  obtain ⟨hinv, hn⟩ := State.applyReset_inv hloaded hfits fun k hk => by simp [hread k hk, hk]
  exact ⟨_, State.start_of_fits hfits, hinv, rfl, rfl, hn, hread⟩

/-- Settles O46: a live entry of a state that meets the invariant has been written, so that the read-back is its value. -/
theorem statusAndReadBackPorts : Obligations.StatusAndReadBackPorts := by
  refine ⟨fun s => ⟨?_, rfl, rfl, rfl⟩, fun s addr hs hr hge hle => ?_⟩
  · rw [State.statusPorts]
    cases s.running <;> rfl
  · obtain ⟨v, hv, -⟩ := hs.stackInForm.exists_read hge hle
    exact ⟨v, hv, fun unspecified => by simp [State.dbgStkData, hr, hge, hle, hv]⟩

end Sys2Proof.Machine

/-! ### Progress and halting (O11, O12, O40, O41) -/

namespace Sys2Proof.Machine

theorem step_of_halted {s : State} (hr : s.running = false) : step s = .next s :=
  step_next.2 (.inl ⟨hr, rfl⟩)

/-- Settles O11: RUNNING is looked at before anything else. -/
theorem haltedStateIsHeld : Obligations.HaltedStateIsHeld :=
  fun _ hr => ⟨step_of_halted hr, if_pos (.inl hr)⟩

/-- Settles O12: both the step and the start compare the stream's length with IMEM_DEPTH. -/
theorem overlongStreamIsRefused : Obligations.OverlongStreamIsRefused := by
  refine ⟨fun s hr hn => ?_, fun s cells hlen => if_neg (Nat.not_le.2 hlen)⟩
  simp [step, hr, not_le.2 hn]

/-- From the invariant an instruction completes, halts, or, under REFUSE, is refused. -/
theorem State.Inv.effect_progress {s : State} (hs : s.Inv) (i : Instr) :
    (∃ t, effect i s = .ok t) ∨ (∃ c, effect i s = .error (.halt c)) ∨
      ∃ r, effect i s = .error (.refuse r) ∧ s.cfg.ovfBands = .refuseBands := by
  have hge := hs.spGe
  have hlt := hs.spLt
  induction i using forall_instr_of_shapes with
  | psh imm =>
    by_cases hend : s.n ≤ s.ip + 1
    · exact .inr (.inl ⟨_, pshEffect_halt.2 (.inl ⟨hend, rfl⟩)⟩)
    · by_cases hfull : s.sp = s.cfg.stackCapacity - 1
      · exact .inr (.inl ⟨_, pshEffect_halt.2 (.inr ⟨by omega, hfull, rfl⟩)⟩)
      · exact .inl ⟨_, pshEffect_ok.2 ⟨by omega, ⟨hfull, by omega, by omega⟩, rfl⟩⟩
  | pop =>
    by_cases hempty : s.sp = -1
    · exact .inr (.inl ⟨_, popEffect_halt.2 ⟨hempty, rfl⟩⟩)
    · obtain ⟨v, hv, -⟩ := hs.stackInForm.exists_read (i := s.sp) (by omega) le_rfl
      exact .inl ⟨_, popEffect_ok.2 ⟨v, ⟨⟨by omega, hlt⟩, hv⟩, rfl⟩⟩
  | binary op =>
    rw [effect_instr]
    by_cases hdepth : s.sp < 1
    · exact .inr (.inl ⟨_, binaryEffect_halt.2 (.inl ⟨hdepth, rfl⟩)⟩)
    · obtain ⟨a, ha, -⟩ := hs.stackInForm.exists_read (i := s.sp) (by omega) le_rfl
      obtain ⟨b, hb, -⟩ := hs.stackInForm.exists_read (i := s.sp - 1) (by omega) (by omega)
      have hops : (1 ≤ s.sp ∧ s.sp < s.cfg.stackCapacity) ∧ s.stk.read s.sp.toNat = some a ∧
          s.stk.read (s.sp - 1).toNat = some b := ⟨⟨by omega, hlt⟩, ha, hb⟩
      by_cases hband : bandRefused s.cfg op b a
      · exact .inr (.inr ⟨_, binaryEffect_refuse.2 ⟨a, b, hops, hband, rfl⟩, hband.1⟩)
      · cases hz : op.hazard s.cfg.cellW b a with
        | none => exact .inl ⟨_, binaryEffect_ok.2 ⟨a, b, hops, ⟨hband, hz⟩, rfl⟩⟩
        | some c => exact .inr (.inl ⟨c, binaryEffect_halt.2 (.inr ⟨a, b, hops, hband, hz⟩)⟩)
  | set => exact .inr (.inl ⟨_, rfl⟩)
  | hlt => exact .inr (.inl ⟨_, rfl⟩)

/-- From the invariant a step answers a next state or, under REFUSE, is refused. -/
theorem State.Inv.step_progress {s : State} (hs : s.Inv) :
    (∃ t, step s = .next t) ∨ ∃ r, step s = .refused r ∧ s.cfg.ovfBands = .refuseBands := by
  cases hr : s.running with
  | false => exact .inl ⟨s, step_of_halted hr⟩
  | true =>
    cases hf : s.fetch with
    | halt c => exact .inl ⟨_, step_of_fetch_halt hr hs.streamFits hf⟩
    | fault f =>
      obtain ⟨cells, -, -, hfetch⟩ := hs.fetch_eq
      exact absurd (hfetch.symm.trans hf) (fetchedOf_ne_fault _ f)
    | instr i =>
      rw [step_of_fetch_instr hr hs.streamFits hf, exec_eq]
      rcases hs.effect_progress i with ⟨t, ht⟩ | ⟨c, hc⟩ | ⟨r, hrefuse, hpolicy⟩
      · exact .inl ⟨t, conclude_next.2 (.inl ht)⟩
      · exact .inl ⟨_, conclude_next.2 (.inr ⟨c, hc, rfl⟩)⟩
      · exact .inr ⟨r, conclude_refused.2 hrefuse, hpolicy⟩

/-- Settles O40: what is left of a step that answers no next state is a refusal, which EXACT has none of. -/
theorem noFaultFromTheInvariant : Obligations.NoFaultFromTheInvariant := by
  intro s hs
  rcases hs.step_progress with ⟨t, ht⟩ | ⟨r, hr, hpolicy⟩
  · exact ⟨fun f => by simp [ht], fun _ => ⟨t, ht⟩⟩
  · exact ⟨fun f => by simp [hr], fun hexact => by simp [hexact] at hpolicy⟩

/-- A step that keeps RUNNING at 1 has advanced IP (R73, R76). -/
theorem step_next_ip_lt {s t : State} (hr : s.running = true) (h : step s = .next t) (ht : t.running = true) :
    s.ip < t.ip := by
  rcases step_next.1 h with ⟨hstop, -⟩ | ⟨-, -, ⟨i, -, hex⟩ | ⟨c, -, rfl⟩⟩
  · simp [hr] at hstop
  · rcases exec_next_ip hex with ⟨-, hip⟩ | ⟨hstop, -⟩
    · have hpos := i.opcode.length_pos
      omega
    · simp [hstop] at ht
  · cases ht

theorem runSteps_of_halted {s : State} (hr : s.running = false) (k : Nat) : runSteps k s = .next s := by
  induction k with
  | zero => rfl
  | succ k ih => rw [runSteps_succ k (step_of_halted hr), ih]

/-- The cells from IP to the stream's end bound the steps that are left (R76). -/
theorem State.Inv.exists_halted {s : State} (hs : s.Inv) (hexact : s.cfg.ovfBands = .exactTest) {k : Nat}
    (hk : s.n - s.ip < k) : ∃ t, runSteps k s = .next t ∧ t.running = false := by
  induction k generalizing s with
  | zero =>
    have hle := hs.ipLe
    omega
  | succ k ih =>
    cases hr : s.running with
    | false => exact ⟨s, runSteps_of_halted hr _, hr⟩
    | true =>
      obtain ⟨t, hstep⟩ := (noFaultFromTheInvariant s hs).2 hexact
      have hfixed := stepKeepsTheFixedState s t hstep
      rw [runSteps_succ k hstep]
      cases ht : t.running with
      | false => exact ⟨t, runSteps_of_halted ht k, ht⟩
      | true =>
        have hlt := step_next_ip_lt hr hstep ht
        refine ih (stepKeepsTheInvariant s t hs hstep) (hfixed.cfg ▸ hexact) ?_
        rw [hfixed.n_eq]
        omega

/-- Settles O41: no more than N cells lie between IP and the stream's end. -/
theorem everyRunHalts : Obligations.EveryRunHalts := by
  intro s hs hexact
  have hge := hs.ipNonneg
  have hn := s.n_eq
  exact hs.exists_halted hexact (by omega)

end Sys2Proof.Machine

/-! ### Lists of pushes and pops (O20, O21) -/

namespace Sys2Proof.Machine

theorem State.SameFixed.trans {s t u : State} (h : s.SameFixed t) (h' : t.SameFixed u) : s.SameFixed u where
  cfg := h'.cfg.trans h.cfg
  imem := h'.imem.trans h.imem
  streamLen := h'.streamLen.trans h.streamLen
  a := h'.a.trans h.a
  b := h'.b.trans h.b
  c := h'.c.trans h.c
  d := h'.d.trans h.d
  e := h'.e.trans h.e
  f := h'.f.trans h.f

/-- Two frames of completion, one after the other. -/
theorem State.CompletesInto.trans {s t u : State} {dIp dSp dIp' dSp' : Int} {rs rs' : List OutRecord}
    (h : s.CompletesInto t dIp dSp rs) (h' : t.CompletesInto u dIp' dSp' rs') :
    s.CompletesInto u (dIp + dIp') (dSp + dSp') (rs ++ rs') where
  fixed := h.fixed.trans h'.fixed
  running := h'.running.trans h.running
  haltCause := h'.haltCause.trans h.haltCause
  ip := by rw [h'.ip, h.ip, add_assoc]
  sp := by rw [h'.sp, h.sp, add_assoc]
  trace := by rw [h'.trace, h.trace, List.append_assoc]

theorem State.completesInto_refl (s : State) : s.CompletesInto s 0 0 [] where
  fixed := s.sameFixed_refl
  running := rfl
  haltCause := rfl
  ip := (add_zero _).symm
  sp := (add_zero _).symm
  trace := (List.append_nil _).symm

theorem execAll_cons {i : Instr} {rest : List Instr} {s t : State} (h : exec i s = .next t) (ht : t.running = true) :
    execAll (i :: rest) s = execAll rest t := by
  simp [execAll, h, ht]

theorem execAll_singleton {i : Instr} {s t : State} (h : exec i s = .next t) : execAll [i] s = .next t := by
  simp [execAll, h]

theorem execAll_append {is js : List Instr} {s t : State} (h : execAll is s = .next t) (ht : t.running = true) :
    execAll (is ++ js) s = execAll js t := by
  induction is generalizing s with
  | nil =>
    cases h
    rfl
  | cons i rest ih =>
    rw [execAll] at h
    split at h
    · rename_i u hu
      split at h
      · rename_i hrun
        rw [List.cons_append, execAll_cons hu hrun, ih h]
      · cases h
        contradiction
    · cases h
    · cases h

/-- A push with its operand cell inside the stream and room on the stack. -/
theorem exec_psh_of_room {s : State} (imm : Int) (hip : s.ip + 1 < s.n) (hge : -1 ≤ s.sp)
    (hroom : s.sp + 1 < s.cfg.stackCapacity) :
    ∃ t, exec (.psh imm) s = .next t ∧ s.CompletesInto t 2 1 [] ∧ t.stk = s.stk.write (s.sp + 1).toNat imm := by
  have hok := pshEffect_ok (imm := imm).2 ⟨hip, ⟨by omega, by omega, hroom⟩, rfl⟩
  exact ⟨_, exec_next.2 (.inl hok), pshEffect_completesInto hok, rfl⟩

/-- A pop of a top entry that holds a value. -/
theorem exec_pop_of_top {s : State} {v : Int} (hge : 0 ≤ s.sp) (hlt : s.sp < s.cfg.stackCapacity)
    (hv : s.stk.read s.sp.toNat = some v) :
    ∃ t, exec .pop s = .next t ∧ s.CompletesInto t 1 (-1) [.popped v] ∧ t.stk = s.stk := by
  have hok := popEffect_ok.2 ⟨v, ⟨⟨hge, hlt⟩, hv⟩, rfl⟩
  exact ⟨_, exec_next.2 (.inl hok), popEffect_completesInto hv hok⟩

/-- Pushes with room for all of them write their values one above the other. -/
theorem execAll_pushes {s : State} (vs : List Int) (hr : s.running = true) (hge : -1 ≤ s.sp)
    (hroom : s.sp + vs.length < s.cfg.stackCapacity) (hip : s.ip + 2 * vs.length ≤ s.n) :
    ∃ t, execAll (vs.map Instr.psh) s = .next t ∧ s.CompletesInto t (2 * vs.length) vs.length [] ∧
      t.stk = s.stk.writeAll (s.sp + 1).toNat vs := by
  induction vs generalizing s with
  | nil => exact ⟨s, rfl, s.completesInto_refl, rfl⟩
  | cons v vs ih =>
    rw [List.length_cons, Nat.cast_succ] at hroom hip ⊢
    obtain ⟨t, hex, hframe, hstk⟩ := exec_psh_of_room (s := s) v (by omega) hge (by omega)
    have hrun : t.running = true := hframe.running.trans hr
    have htip := hframe.ip
    have htsp := hframe.sp
    have hn := hframe.fixed.n_eq
    obtain ⟨u, hall, hframe', hstk'⟩ := ih hrun (by omega) (by rw [hframe.fixed.cfg]; omega) (by omega)
    refine ⟨u, (execAll_cons hex hrun).trans hall, ?_, ?_⟩
    · have htrans := hframe.trans hframe'
      rwa [show (2 : Int) + 2 * vs.length = 2 * (vs.length + 1) by ring, add_comm (1 : Int)] at htrans
    · have hnext : (t.sp + 1).toNat = (s.sp + 1).toNat + 1 := by omega
      rw [hstk', hstk, hnext]
      rfl

/-- Pushes and as many pops emit the values in reverse order, and leave SP and the entries up to it: each value's push and
pop enclose those of the values after it. -/
theorem execAll_pushes_pops {s : State} (vs : List Int) (hr : s.running = true) (hge : -1 ≤ s.sp)
    (hroom : s.sp + vs.length < s.cfg.stackCapacity) (hip : s.ip + 2 * vs.length ≤ s.n) :
    ∃ t dIp, execAll (vs.map Instr.psh ++ List.replicate vs.length Instr.pop) s = .next t ∧
      s.CompletesInto t dIp 0 (vs.reverse.map OutRecord.popped) ∧
      ∀ j : Nat, (j : Int) ≤ s.sp → t.stk.read j = s.stk.read j := by
  induction vs generalizing s with
  | nil => exact ⟨s, 0, rfl, s.completesInto_refl, fun _ _ => rfl⟩
  | cons v vs ih =>
    rw [List.length_cons, Nat.cast_succ] at hroom hip
    obtain ⟨t, hpush, hframe, hstk⟩ := exec_psh_of_room (s := s) v (by omega) hge (by omega)
    have hrun : t.running = true := hframe.running.trans hr
    have htip := hframe.ip
    have htsp := hframe.sp
    have hn := hframe.fixed.n_eq
    have hcfg := hframe.fixed.cfg
    obtain ⟨u, dIp, hinner, hframe', hlive⟩ := ih hrun (by omega) (by rw [hcfg]; omega) (by omega)
    have hrun' : u.running = true := hframe'.running.trans hrun
    have husp : u.sp = s.sp + 1 := by rw [hframe'.sp, htsp, add_zero]
    have htop : u.stk.read u.sp.toNat = some v := by
      rw [husp, hlive _ (by omega), hstk, Memory.read_write_same]
    obtain ⟨w, hpop, hframe'', hstk''⟩ :=
      exec_pop_of_top (s := u) (by omega) (by rw [hframe'.fixed.cfg, hcfg]; omega) htop
    refine ⟨w, 2 + dIp + 1, ?_, ?_, fun j hj => ?_⟩
    · rw [List.length_cons, List.replicate_succ', ← List.append_assoc, List.map_cons, List.cons_append,
        execAll_append ((execAll_cons hpush hrun).trans hinner) hrun', execAll_singleton hpop]
    · simpa using (hframe.trans hframe').trans hframe''
    · rw [hstk'', hlive j (by omega), hstk]
      exact Memory.read_write_other _ v (by omega)

/-- Settles O20: the frame of the nested pushes and pops, from a state of the invariant. -/
theorem pushedValuesPopInReverse : Obligations.PushedValuesPopInReverse := by
  intro s vs _ hs hr hroom hip
  obtain ⟨t, dIp, hall, hframe, -⟩ := execAll_pushes_pops vs hr hs.spGe hroom (by omega)
  exact ⟨t, hall, hframe.running.trans hr, hframe.trace, by rw [hframe.sp, add_zero]⟩

/-- Settles O21: the pushes that fit leave SP at the top entry, where the next one overflows and changes nothing. -/
theorem overflowIsExact : Obligations.OverflowIsExact := by
  intro s vs v _ hs hr hempty hlen hip
  obtain ⟨t, hall, hframe, hstk⟩ := execAll_pushes vs hr hs.spGe (by omega) (by omega)
  have hrun : t.running = true := hframe.running.trans hr
  have htip := hframe.ip
  have htsp := hframe.sp
  have hn := hframe.fixed.n_eq
  have hcfg := hframe.fixed.cfg
  have hover := pshEffect_halt (imm := v).2 (.inr ⟨(by omega : t.ip + 1 < t.n), by rw [hcfg]; omega, rfl⟩)
  obtain ⟨u, hex, hhalt⟩ := exec_haltsInto (i := .psh v) hover
  refine ⟨⟨t, hall, hrun⟩, u, ?_, hhalt.running, hhalt.haltCause, ?_, fun k hk => ?_⟩
  · rw [execAll_append hall hrun, execAll_singleton hex]
  · rw [hhalt.ip_sp_eq.2]
    omega
  · have hread := Memory.read_writeAll (m := s.stk) (s.sp + 1).toNat vs hk
    have hbottom : (s.sp + 1).toNat + k = k := by omega
    rwa [hbottom, ← List.getElem?_eq_getElem hk, ← hstk, ← hhalt.stk] at hread

end Sys2Proof.Machine

/-! ### Hazard tests, quotients and bands (O27, O28, O29), and the beats of completed instructions (O45) -/

namespace Sys2Proof.Machine

/-- Settles O27: DIV's overflow test is looked at once the divisor is no 0. -/
theorem hazardTestsAreExact : Obligations.HazardTestsAreExact := by
  intro w b a hb ha
  refine ⟨addOverflows_iff ha, subOverflows_iff hb, mulOverflows_iff, fun h0 => ?_⟩
  rw [← divOverflows_iff hb h0]
  simp [ArithOp.hazard, h0]

/-- What the quotient that rounds toward zero leaves is the remainder of the dividend's sign. -/
theorem sub_mul_divTrunc (b a : Int) : b - a * divTrunc b a = b.tmod a := by
  rw [divTrunc_eq_tdiv, Int.tmod_def]

theorem mul_tmod_self_nonneg (b a : Int) : 0 ≤ b * b.tmod a := by
  rcases le_total 0 b with hb | hb
  · exact mul_nonneg hb (Int.tmod_nonneg a hb)
  · have hneg : 0 ≤ (-b).tmod a := Int.tmod_nonneg a (by omega)
    rw [Int.neg_tmod] at hneg
    exact mul_nonneg_of_nonpos_of_nonpos hb (by omega)

/-- Settles O28: sizes are those of the natural division of the absolute values. -/
theorem divisionRoundsTowardZero : Obligations.DivisionRoundsTowardZero := by
  intro b a h0
  rw [sub_mul_divTrunc]
  refine ⟨divTrunc_eq_tdiv b a, ?_, ?_, mul_tmod_self_nonneg b a⟩
  · rw [Int.natAbs_tmod]
    exact Nat.mod_lt _ (Int.natAbs_pos.2 h0)
  · rw [divTrunc_eq_tdiv, Int.natAbs_mul, natAbs_tdiv_eq_div]
    exact Nat.mul_div_le ..

theorem pshEffect_ne_refuse {imm : Int} {s : State} {r : Refusal} : pshEffect imm s ≠ .error (.refuse r) := by
  unfold pshEffect
  cases hr : s.requireOperandCell with
  | error e =>
    obtain ⟨-, rfl⟩ := State.requireOperandCell_error.1 hr
    simp
  | ok u =>
    cases hp : s.push imm with
    | error e =>
      rintro ⟨⟩
      exact State.push_refuse hp
    | ok t => simp

theorem popEffect_ne_refuse {s : State} {r : Refusal} : popEffect s ≠ .error (.refuse r) := by
  unfold popEffect
  cases hp : s.pop with
  | error e =>
    rintro ⟨⟩
    exact State.pop_refuse hp
  | ok w => simp

/-- A refused instruction is a binary operation on operands in its band (R128). -/
theorem exec_refused {i : Instr} {s : State} {r : Refusal} : exec i s = .refused r ↔
    ∃ op a b, i = op.instr ∧ ((1 ≤ s.sp ∧ s.sp < s.cfg.stackCapacity) ∧ s.stk.read s.sp.toNat = some a ∧
      s.stk.read (s.sp - 1).toNat = some b) ∧ bandRefused s.cfg op b a ∧ r = .overflowBand op := by
  rw [exec_eq, conclude_refused]
  constructor
  · intro h
    induction i using forall_instr_of_shapes with
    | psh imm => exact absurd h pshEffect_ne_refuse
    | pop => exact absurd h popEffect_ne_refuse
    | binary op =>
      rw [effect_instr] at h
      obtain ⟨a, b, h⟩ := binaryEffect_refuse.1 h
      exact ⟨op, a, b, rfl, h⟩
    | set => cases h
    | hlt => cases h
  · rintro ⟨op, a, b, rfl, h⟩
    rw [effect_instr]
    exact binaryEffect_refuse.2 ⟨a, b, h⟩

theorem exec_binary_refused_iff {op : ArithOp} {s : State} {b a : Int} (hops : s.HasOperands b a) :
    exec op.instr s = .refused (.overflowBand op) ↔ bandRefused s.cfg op b a := by
  rw [exec_refused]
  constructor
  · rintro ⟨op', a', b', -, ⟨-, ha, hb⟩, hband, hop⟩
    obtain rfl := Option.some.inj (ha.symm.trans hops.top)
    obtain rfl := Option.some.inj (hb.symm.trans hops.second)
    rwa [Refusal.overflowBand.inj hop]
  · exact fun hband => ⟨op, a, b, rfl, hops.reads, hband, rfl⟩

theorem ArithOp.inBand_sub {w : Nat} {b a : Int} :
    ArithOp.sub.inBand w b a = true ↔ b - a = cellMin w ∨ b - a = cellMax w + 1 :=
  decide_eq_true_iff

theorem ArithOp.inBand_mul {w : Nat} {b a : Int} : ArithOp.mul.inBand w b a = true ↔ b * a = cellMin w :=
  decide_eq_true_iff

/-- Settles O29: the refusals of the one place that raises them, with each band written out; SUB's band is where the exact
difference passes a bound by no more than the source's formula overlooks. -/
theorem bandsAreRefusedUnderRefuse : Obligations.BandsAreRefusedUnderRefuse := by
  refine ⟨fun s b a hpolicy hops => ⟨?_, ?_⟩, fun i s r h => ?_, fun w b a hb ha => ?_⟩
  · exact (exec_binary_refused_iff (op := .sub) hops).trans ((and_iff_right hpolicy).trans ArithOp.inBand_sub)
  · exact (exec_binary_refused_iff (op := .mul) hops).trans ((and_iff_right hpolicy).trans ArithOp.inBand_mul)
  · obtain ⟨op, a, b, rfl, ⟨⟨hdepth, hlt⟩, ha, hb⟩, ⟨hpolicy, hband⟩, rfl⟩ := exec_refused.1 h
    refine ⟨hpolicy, hdepth, hlt, b, a, ha, hb, ?_⟩
    cases op with
    | add => cases hband
    | sub => exact .inl ⟨rfl, rfl, ArithOp.inBand_sub.1 hband⟩
    | mul => exact .inr ⟨rfl, rfl, ArithOp.inBand_mul.1 hband⟩
    | div => cases hband
  · have hmin := cellMin_eq w
    rw [ArithOp.inBand_sub, subOverflows_iff hb]
    omega

/-- A machine that an instruction leaves running has completed it. -/
theorem effect_of_exec_running {i : Instr} {s t : State} (h : exec i s = .next t) (ht : t.running = true) :
    effect i s = .ok t := by
  rcases exec_next.1 h with hok | ⟨c, -, rfl⟩
  · exact hok
  · cases ht

theorem State.CompletesInto.beats_eq {s t : State} {dIp dSp : Int} {records : List OutRecord}
    (h : s.CompletesInto t dIp dSp records) : t.beats = s.beats ++ records.map OutRecord.beat := by
  rw [State.beats, h.trace, List.map_append]
  rfl

/-- Settles O45: the record of a completed instruction, as the port shows it. -/
theorem outputBeats : Obligations.OutputBeats := by
  refine ⟨fun s t v _ hv _ h ht => ?_, fun op s t b a _ hops h ht => ?_⟩
  · exact (popEffect_completesInto hv (effect_of_exec_running h ht)).1.beats_eq
  · have hok := effect_of_exec_running h ht
    rw [effect_instr] at hok
    obtain ⟨a', b', ⟨-, ha, hb⟩, -, rfl⟩ := binaryEffect_ok.1 hok
    obtain rfl := Option.some.inj (ha.symm.trans hops.top)
    obtain rfl := Option.some.inj (hb.symm.trans hops.second)
    refine ⟨op.result b' a', Memory.read_write_same .., ?_⟩
    rw [(committed_completesInto op b' a' _ s).beats_eq]
    cases op <;> rfl

end Sys2Proof.Machine

/-! ### What a step does not depend on: dead stack entries (O36), and cells it does not request (O37) -/

namespace Sys2Proof.Machine

/-- Two stack RAMs agree on the entries up to `sp`. -/
def AgreeUpTo (sp : Int) (m m' : Memory) : Prop := ∀ j : Nat, (j : Int) ≤ sp → m.read j = m'.read j

theorem AgreeUpTo.mono {sp sp' : Int} {m m' : Memory} (h : AgreeUpTo sp m m') (hle : sp' ≤ sp) : AgreeUpTo sp' m m' :=
  fun j hj => h j (hj.trans hle)

theorem AgreeUpTo.read_toNat {sp i : Int} {m m' : Memory} (h : AgreeUpTo sp m m') (hge : 0 ≤ i) (hle : i ≤ sp) :
    m.read i.toNat = m'.read i.toNat :=
  h i.toNat (by omega)

/-- The same write keeps the agreement, and extends it when it is to the entry above. -/
theorem AgreeUpTo.write {sp : Int} {m m' : Memory} (h : AgreeUpTo sp m m') (i v : Int) (hle : i ≤ sp + 1) :
    AgreeUpTo (max sp i) (m.write i.toNat v) (m'.write i.toNat v) := by
  intro j hj
  rw [Memory.read_write, Memory.read_write]
  split
  · rfl
  · exact h j (by omega)

section DeadEntries

variable {s : State} {m : Memory} (hm : AgreeUpTo s.sp m s.stk)
include hm

/-- What completes, completes with other dead entries, to a state that differs in dead entries alone. -/
theorem effect_ok_setStk {i : Instr} {t : State} (h : effect i s = .ok t) :
    ∃ u, effect i (s.setStk m) = .ok u ∧ u.setStk [] = t.setStk [] ∧ AgreeUpTo t.sp u.stk t.stk := by
  induction i using forall_instr_of_shapes with
  | psh imm =>
    obtain ⟨hip, hroom, rfl⟩ := pshEffect_ok.1 h
    refine ⟨_, pshEffect_ok.2 ⟨hip, hroom, rfl⟩, rfl, ?_⟩
    exact (hm.write (s.sp + 1) imm le_rfl).mono (le_max_right ..)
  | pop =>
    obtain ⟨v, ⟨hbound, hv⟩, rfl⟩ := popEffect_ok.1 h
    refine ⟨_, popEffect_ok.2 ⟨v, ⟨hbound, (hm.read_toNat hbound.1 le_rfl).trans hv⟩, rfl⟩, rfl, ?_⟩
    exact hm.mono (Int.sub_le_self _ zero_le_one)
  | binary op =>
    rw [effect_instr] at h
    obtain ⟨a, b, ⟨hbound, ha, hb⟩, hz, rfl⟩ := binaryEffect_ok.1 h
    have ha' := (hm.read_toNat (by omega) le_rfl).trans ha
    have hb' := (hm.read_toNat (by omega) (by omega)).trans hb
    refine ⟨_, (effect_instr ..).trans (binaryEffect_ok.2 ⟨a, b, ⟨hbound, ha', hb'⟩, hz, rfl⟩), rfl, ?_⟩
    exact (hm.write (s.sp - 1) _ (by omega)).mono (le_max_right ..)
  | set => cases h
  | hlt => cases h

/-- What halts, halts in the same cause with other dead entries. -/
theorem effect_halt_setStk {i : Instr} {c : HaltCause} (h : effect i s = .error (.halt c)) :
    effect i (s.setStk m) = .error (.halt c) := by
  induction i using forall_instr_of_shapes with
  | psh imm =>
    have hcause := pshEffect_halt.1 h
    exact pshEffect_halt.2 hcause
  | pop =>
    have hcause := popEffect_halt.1 h
    exact popEffect_halt.2 hcause
  | binary op =>
    rw [effect_instr] at h ⊢
    refine binaryEffect_halt.2 ?_
    rcases binaryEffect_halt.1 h with hunder | ⟨a, b, ⟨hbound, ha, hb⟩, hz⟩
    · exact .inl hunder
    · have ha' := (hm.read_toNat (by omega) le_rfl).trans ha
      have hb' := (hm.read_toNat (by omega) (by omega)).trans hb
      exact .inr ⟨a, b, ⟨hbound, ha', hb'⟩, hz⟩
  | set => exact h
  | hlt => exact h

end DeadEntries

/-- Settles O36: the fetch does not look at the stack, an instruction looks at live entries alone, and the entry that a push
makes live is written by it. -/
theorem deadEntriesDoNotMatter : Obligations.DeadEntriesDoNotMatter := by
  intro s t m _ hm h
  rcases step_next.1 h with ⟨hr, rfl⟩ | ⟨hr, hn, ⟨i, hf, hex⟩ | ⟨c, hf, rfl⟩⟩
  · exact ⟨_, step_next.2 (.inl ⟨hr, rfl⟩), rfl, hm⟩
  · rcases exec_next.1 hex with hok | ⟨c, hc, rfl⟩
    · obtain ⟨u, hu, hsame, hlive⟩ := effect_ok_setStk hm hok
      exact ⟨u, step_next.2 (.inr ⟨hr, hn, .inl ⟨i, hf, exec_next.2 (.inl hu)⟩⟩), hsame, hlive⟩
    · have hex' := exec_next.2 (.inr ⟨c, effect_halt_setStk hm hc, rfl⟩)
      exact ⟨_, step_next.2 (.inr ⟨hr, hn, .inl ⟨i, hf, hex'⟩⟩), rfl, hm⟩
  · exact ⟨_, step_next.2 (.inr ⟨hr, hn, .inr ⟨c, hf, rfl⟩⟩), rfl, hm⟩

/-! #### Other cells in the instruction memory

An instruction neither reads nor writes the instruction memory once it is fetched, so that other cells can be put there before
or after it. -/

section WithImem

variable (m : Memory) (s : State)

@[simp] theorem State.withImem_cfg : (s.withImem m).cfg = s.cfg := rfl
@[simp] theorem State.withImem_imem : (s.withImem m).imem = m := rfl
@[simp] theorem State.withImem_running : (s.withImem m).running = s.running := rfl
@[simp] theorem State.withImem_ip : (s.withImem m).ip = s.ip := rfl
@[simp] theorem State.withImem_sp : (s.withImem m).sp = s.sp := rfl
@[simp] theorem State.withImem_n : (s.withImem m).n = s.n := rfl
@[simp] theorem State.withImem_pastEnd : (s.withImem m).pastEnd = s.pastEnd := rfl
@[simp] theorem State.withImem_readStack (i : Int) : (s.withImem m).readStack i = s.readStack i := rfl

theorem State.withImem_writeStack (i x : Int) :
    (s.withImem m).writeStack i x = (s.writeStack i x).map (State.withImem m) := by
  by_cases h : 0 ≤ i ∧ i < s.cfg.stackCapacity
  · have hwith : (s.withImem m).writeStack i x = .ok _ := if_pos h
    have hplain : s.writeStack i x = .ok _ := if_pos h
    rw [hwith, hplain]
    rfl
  · have hwith : (s.withImem m).writeStack i x = .error _ := if_neg h
    have hplain : s.writeStack i x = .error _ := if_neg h
    rw [hwith, hplain]
    rfl

theorem State.withImem_push (x : Int) : (s.withImem m).push x = (s.push x).map (State.withImem m) := by
  by_cases h : s.sp = s.cfg.stackCapacity - 1
  · rw [State.push_halt (s := s) |>.2 ⟨h, rfl⟩, State.push_halt (s := s.withImem m) |>.2 ⟨h, rfl⟩]
    rfl
  · have hwith : (s.withImem m).push x = (s.raiseSp.withImem m).writeStack (s.sp + 1) x := if_neg h
    have hplain : s.push x = s.raiseSp.writeStack (s.sp + 1) x := if_neg h
    rw [hwith, hplain, State.withImem_writeStack]

theorem State.withImem_pop : (s.withImem m).pop = s.pop.map (Prod.map id (State.withImem m)) := by
  by_cases h : s.sp = -1
  · simp [State.pop, h, Except.map]
  · cases hr : s.readStack s.sp with
    | error e => simp [State.pop, h, hr, Except.map]
    | ok v =>
      simp only [State.pop, State.withImem_sp, State.withImem_readStack, if_neg h, hr]
      rfl

theorem commitBinary_withImem (op : ArithOp) (b a r : Int) :
    commitBinary op b a r (s.withImem m) = (commitBinary op b a r s).map (State.withImem m) := by
  have hwrite : (s.withImem m).lowerSp.writeStack (s.sp - 1) r =
      (s.lowerSp.writeStack (s.sp - 1) r).map (State.withImem m) := State.withImem_writeStack m s.lowerSp _ _
  simp only [commitBinary, State.withImem_sp, hwrite]
  cases s.lowerSp.writeStack (s.sp - 1) r <;> rfl

theorem binaryEffect_withImem (op : ArithOp) :
    binaryEffect op (s.withImem m) = (binaryEffect op s).map (State.withImem m) := by
  have hops : (s.withImem m).binaryOperands = s.binaryOperands := rfl
  simp only [binaryEffect, hops, State.withImem_cfg, commitBinary_withImem]
  cases s.binaryOperands with
  | error e => rfl
  | ok ab =>
    obtain ⟨a, b⟩ := ab
    dsimp only
    cases checkHazard s.cfg op b a <;> rfl

theorem effect_withImem (i : Instr) : effect i (s.withImem m) = (effect i s).map (State.withImem m) := by
  induction i using forall_instr_of_shapes with
  | psh imm =>
    have hcell : (s.withImem m).requireOperandCell = s.requireOperandCell := rfl
    simp only [effect, pshEffect, hcell, State.withImem_push]
    cases s.requireOperandCell with
    | error e => rfl
    | ok u => cases s.push imm <;> rfl
  | pop =>
    simp only [effect, popEffect, State.withImem_pop]
    cases s.pop <;> rfl
  | binary op => rw [effect_instr, effect_instr, binaryEffect_withImem]
  | set => rfl
  | hlt => rfl

theorem exec_withImem (i : Instr) : exec i (s.withImem m) = mapNext (State.withImem m) (exec i s) := by
  rw [exec_eq, exec_eq, effect_withImem]
  rcases effect i s with (c | f | q) | t <;> rfl

end WithImem

/-- What a running machine inside its stream requests: the opcode cell, and PSH's operand cell where it lies inside the
stream (R54). -/
theorem State.imemRequests_of_memRead {s : State} (hr : s.running = true) (hp : s.pastEnd = false) :
    s.ip ∈ s.imemRequests ∧ ∀ op, s.memRead s.ip = .ok op → decodeOpcode s.cfg.opcodes op = some .psh →
      s.ip + 1 < s.n → s.ip + 1 ∈ s.imemRequests := by
  unfold State.imemRequests
  rw [if_neg (by simp [hr, hp])]
  cases s.memRead s.ip with
  | error e => simp
  | ok v =>
    dsimp only
    split
    · simp
    · simp_all

/-- A request lies inside the stream (R54). -/
theorem State.bounds_of_mem_imemRequests {s : State} {r : Int} (h : r ∈ s.imemRequests) : 0 ≤ r ∧ r < s.n := by
  unfold State.imemRequests at h
  split at h
  · cases h
  · rename_i hp
    have hbounds : 0 ≤ s.ip ∧ s.ip < s.n := by
      by_contra hout
      exact hp (.inr (State.pastEnd_iff.2 hout))
    split at h
    · obtain rfl := List.mem_singleton.1 h
      exact hbounds
    · split at h
      · rcases List.mem_pair.1 h with rfl | rfl <;> omega
      · obtain rfl := List.mem_singleton.1 h
        exact hbounds

/-- The fetch of a running machine looks at the requested cells alone. -/
theorem State.fetch_withImem {s : State} {m : Memory} (hr : s.running = true)
    (hm : ∀ r ∈ s.imemRequests, m.read r.toNat = s.imem.read r.toNat) : (s.withImem m).fetch = s.fetch := by
  have hread : ∀ r ∈ s.imemRequests, (s.withImem m).memRead r = s.memRead r := by
    intro r h
    simp [State.memRead, hm r h]
  have hcells : (s.withImem m).fetchCells = s.fetchCells := by
    cases hp : s.pastEnd with
    | true => simp [State.fetchCells, hp]
    | false =>
      obtain ⟨hip, hnext⟩ := State.imemRequests_of_memRead hr hp
      cases hop : s.memRead s.ip with
      | error e => simp [State.fetchCells, hp, hread _ hip, hop]
      | ok op =>
        by_cases hpsh : decodeOpcode s.cfg.opcodes op = some .psh ∧ s.ip + 1 < s.n
        · simp [State.fetchCells, hp, hread _ hip, hop, hpsh, hread _ (hnext op hop hpsh.1 hpsh.2)]
        · simp [State.fetchCells, hp, hread _ hip, hop, hpsh]
  unfold State.fetch
  rw [hcells, State.withImem_cfg]

/-- Settles O37: the fetch finds the same in the requested cells, and what it finds is done without the instruction memory. -/
theorem onlyRequestedCellsMatter : Obligations.OnlyRequestedCellsMatter := by
  refine ⟨fun s r h => State.bounds_of_mem_imemRequests h, fun s m hm => ?_⟩
  cases hr : s.running with
  | false => simp [step, hr, mapNext]
  | true =>
    have hfetch := State.fetch_withImem hr hm
    by_cases hn : s.n ≤ s.cfg.imemDepth
    · cases hf : s.fetch with
      | instr i => simp [step, hr, hn, hfetch, hf, exec_withImem]
      | halt c =>
        simp only [step, State.withImem_running, State.withImem_n, State.withImem_cfg, hr, hn, hfetch, hf]
        rfl
      | fault f => simp [step, hr, hn, hfetch, hf, mapNext]
    · simp [step, hr, hn, mapNext]

end Sys2Proof.Machine

/-! ### Comments and tokens (O50) -/

namespace Sys2Proof.Machine

theorem splitLines_newline (cs : List Char) : splitLines ('\n' :: cs) = [] :: splitLines cs := by
  simp [splitLines]

/-- A text has a first line. -/
theorem exists_splitLines_eq_cons (text : List Char) : ∃ l ls, splitLines text = l :: ls := by
  cases text with
  | nil => exact ⟨_, _, rfl⟩
  | cons c cs =>
    unfold splitLines
    split
    · exact ⟨_, _, rfl⟩
    · split <;> exact ⟨_, _, rfl⟩

/-- A character that is no line feed goes on the first line. -/
theorem splitLines_cons {c : Char} {cs l : List Char} {ls : List (List Char)} (hc : c ≠ '\n')
    (h : splitLines cs = l :: ls) : splitLines (c :: cs) = (c :: l) :: ls := by
  simp [splitLines, hc, h]

/-- Characters that are no line feeds all go on the first line. -/
theorem splitLines_append {cs rest l : List Char} {ls : List (List Char)} (hcs : '\n' ∉ cs)
    (h : splitLines rest = l :: ls) : splitLines (cs ++ rest) = (cs ++ l) :: ls := by
  induction cs with
  | nil => exact h
  | cons c cs ih =>
    rw [List.mem_cons, not_or] at hcs
    exact splitLines_cons (Ne.symm hcs.1) (ih hcs.2)

theorem stripComment_comment (comment : List Char) : stripComment ('#' :: comment) = [] := by
  simp [stripComment]

theorem stripComment_cons (c : Char) {l l' : List Char} (h : stripComment l = stripComment l') :
    stripComment (c :: l) = stripComment (c :: l') := by
  unfold stripComment at h ⊢
  simp only [List.takeWhile_cons, h]

/-- The lines of a text without their comments. -/
def strippedLines (text : List Char) : List (List Char) := (splitLines text).map stripComment

theorem tokenize_eq (text : List Char) : tokenize text = (strippedLines text).flatMap (lineTokens []) := by
  rw [tokenize, strippedLines, List.flatMap_map]

/-- Texts whose stripped lines agree may have any text put before them. -/
theorem strippedLines_append (pre : List Char) {text text' : List Char} (h : strippedLines text = strippedLines text') :
    strippedLines (pre ++ text) = strippedLines (pre ++ text') := by
  induction pre with
  | nil => exact h
  | cons c cs ih =>
    simp only [strippedLines, List.cons_append] at ih ⊢
    by_cases hc : c = '\n'
    · rw [hc, splitLines_newline, splitLines_newline, List.map_cons, List.map_cons, ih]
    · obtain ⟨l, ls, hl⟩ := exists_splitLines_eq_cons (cs ++ text)
      obtain ⟨l', ls', hl'⟩ := exists_splitLines_eq_cons (cs ++ text')
      rw [hl, hl', List.map_cons, List.map_cons, List.cons.injEq] at ih
      rw [splitLines_cons hc hl, splitLines_cons hc hl', List.map_cons, List.map_cons, stripComment_cons c ih.1, ih.2]

theorem strippedLines_comment {comment rest : List Char} {ls : List (List Char)} (h : '\n' ∉ comment)
    (hrest : splitLines rest = [] :: ls) : strippedLines ('#' :: comment ++ rest) = strippedLines rest := by
  have hline : '\n' ∉ '#' :: comment := by simpa using h
  rw [strippedLines, strippedLines, splitLines_append hline hrest, hrest, List.append_nil, List.map_cons, List.map_cons,
    stripComment_comment]
  rfl

theorem isSpace_iff (c : Char) : isSpace c = true ↔ c.toNat ∈ [32, 9, 13, 10, 11, 12] := by
  simp only [isSpace, Bool.or_eq_true, Bool.and_eq_true, decide_eq_true_eq, List.mem_cons, List.not_mem_nil,
    or_false]
  omega

/-- The characters a token may hold: no whitespace, and no comment sign (R80, R81). -/
abbrev IsTokenChar (c : Char) : Prop := isSpace c = false ∧ c ≠ '#'

/-- The tokens of a line without a comment sign are not empty and hold token characters alone. -/
theorem lineTokens_forall {cur line : List Char} (hcur : ∀ c ∈ cur, IsTokenChar c) (hline : '#' ∉ line) :
    ∀ tok ∈ lineTokens cur line, tok ≠ [] ∧ ∀ c ∈ tok, IsTokenChar c := by
  induction line generalizing cur with
  | nil =>
    unfold lineTokens
    split
    · simp
    · rename_i hne
      exact List.forall_mem_singleton.2 ⟨hne, hcur⟩
  | cons c cs ih =>
    rw [List.mem_cons, not_or] at hline
    have hafter := ih (cur := []) (List.forall_mem_nil _) hline.2
    unfold lineTokens
    split
    · split
      · exact hafter
      · rename_i hne
        exact List.forall_mem_cons.2 ⟨⟨hne, hcur⟩, hafter⟩
    · rename_i hspace
      refine ih (List.forall_mem_append.2 ⟨hcur, List.forall_mem_singleton.2 ⟨?_, Ne.symm hline.1⟩⟩) hline.2
      simpa using hspace

theorem not_mem_stripComment (line : List Char) : '#' ∉ stripComment line := by
  intro h
  simpa [stripComment] using List.mem_takeWhile_imp h

/-- A line feed ends a token as any whitespace does: without comments, the tokens of the lines are those of the whole text
read as one line. -/
theorem lineTokens_splitLines {text l : List Char} {ls : List (List Char)} (cur : Token) (h : '#' ∉ text)
    (hsplit : splitLines text = l :: ls) :
    lineTokens cur (stripComment l) ++ (ls.map stripComment).flatMap (lineTokens []) = lineTokens cur text := by
  induction text generalizing cur l ls with
  | nil =>
    cases hsplit
    simp [stripComment]
  | cons c cs ih =>
    rw [List.mem_cons, not_or] at h
    obtain ⟨l', ls', hl'⟩ := exists_splitLines_eq_cons cs
    by_cases hc : c = '\n'
    · subst hc
      rw [splitLines_newline, hl'] at hsplit
      cases hsplit
      have hspace : isSpace '\n' = true := by decide
      have hrest := ih [] h.2 hl'
      rw [List.map_cons, List.flatMap_cons, hrest]
      simp only [stripComment, List.takeWhile_nil, lineTokens, hspace, if_true]
      split <;> rfl
    · rw [splitLines_cons hc hl'] at hsplit
      cases hsplit
      have hstrip : stripComment (c :: l') = c :: stripComment l' := by simp [stripComment, Ne.symm h.1]
      rw [hstrip]
      unfold lineTokens
      split
      · split
        · exact ih [] h.2 hl'
        · rw [List.cons_append, ih [] h.2 hl']
      · exact ih _ h.2 hl'

theorem tokenize_of_no_comment {text : List Char} (h : '#' ∉ text) : tokenize text = lineTokens [] text := by
  obtain ⟨l, ls, hsplit⟩ := exists_splitLines_eq_cons text
  rw [tokenize_eq, ← lineTokens_splitLines [] h hsplit, strippedLines, hsplit]
  rfl

/-- A token with whitespace after it comes first, and the tokens after the whitespace follow. -/
theorem lineTokens_token_spaces {tok spaces : List Char} (rest : List Char) (htok : tok ≠ [])
    (hchars : ∀ c ∈ tok, isSpace c = false) (hne : spaces ≠ []) (hspaces : ∀ c ∈ spaces, isSpace c = true) :
    lineTokens [] (tok ++ spaces ++ rest) = tok :: lineTokens [] rest := by
  obtain ⟨c, cs, rfl⟩ := List.exists_cons_of_ne_nil hne
  obtain ⟨hc, hcs⟩ := List.forall_mem_cons.1 hspaces
  rw [List.append_assoc, lineTokens_token [] _ hchars, List.nil_append, List.cons_append, lineTokens, if_pos hc,
    if_neg htok, lineTokens_spaces rest hcs]

theorem lineTokens_last {last : Token} (h : ∀ c ∈ last, isSpace c = false) :
    lineTokens [] last = if last = [] then [] else [last] := by
  simpa [lineTokens] using lineTokens_token [] [] h

/-- Tokens, each with whitespace after it, and a last one are the tokens of their text. -/
theorem lineTokens_items {items : List (Token × List Char)} {last : Token}
    (hitems : ∀ p ∈ items, p.1 ≠ [] ∧ (∀ c ∈ p.1, IsTokenChar c) ∧ p.2 ≠ [] ∧ ∀ c ∈ p.2, isSpace c = true)
    (hlast : ∀ c ∈ last, IsTokenChar c) :
    lineTokens [] (items.flatMap (fun p => p.1 ++ p.2) ++ last) =
      items.map Prod.fst ++ (if last = [] then [] else [last]) := by
  induction items with
  | nil => exact lineTokens_last fun c hc => (hlast c hc).1
  | cons p ps ih =>
    obtain ⟨⟨htok, hchars, hne, hspaces⟩, hps⟩ := List.forall_mem_cons.1 hitems
    rw [List.flatMap_cons, List.append_assoc, lineTokens_token_spaces _ htok (fun c hc => (hchars c hc).1) hne hspaces,
      ih hps, List.map_cons, List.cons_append]

theorem not_isSpace_comment_sign : isSpace '#' = false := by decide

/-- Settles O50: a comment is stripped from its line, and what is left is read as one line of tokens and whitespace. -/
theorem commentsAndWhitespace : Obligations.CommentsAndWhitespace := by
  refine ⟨fun pre comment post h => ?_, fun pre comment h => ?_, isSpace_iff, fun text tok htok => ?_,
    fun lead items last hlead hitems hlast => ?_⟩
  · have hstrip := strippedLines_comment h (splitLines_newline post)
    rw [tokenize_eq, tokenize_eq, List.append_assoc, strippedLines_append pre hstrip]
  · have hstrip := strippedLines_comment (rest := []) h rfl
    rw [List.append_nil] at hstrip
    rw [tokenize_eq, tokenize_eq, strippedLines_append pre hstrip, List.append_nil]
  · obtain ⟨line, -, htok⟩ := List.mem_flatMap.1 htok
    exact lineTokens_forall (List.forall_mem_nil _) (not_mem_stripComment line) tok htok
  · have hspace {cs : List Char} (h : ∀ c ∈ cs, isSpace c = true) : '#' ∉ cs := fun hmem => by
      simpa [not_isSpace_comment_sign] using h _ hmem
    have hchars {cs : List Char} (h : ∀ c ∈ cs, IsTokenChar c) : '#' ∉ cs := fun hmem => (h _ hmem).2 rfl
    have hnone : '#' ∉ lead ++ items.flatMap (fun p => p.1 ++ p.2) ++ last := by
      simp only [List.mem_append, List.mem_flatMap, not_or, not_exists, not_and]
      exact ⟨⟨hspace hlead, fun p hp => ⟨hchars (hitems p hp).2.1, hspace (hitems p hp).2.2.2⟩⟩, hchars hlast⟩
    rw [tokenize_of_no_comment hnone, List.append_assoc, lineTokens_spaces _ hlead, lineTokens_items hitems hlast]

end Sys2Proof.Machine

/-! ### The assembly loop and what it produces (O49, O51) -/

namespace Sys2Proof.Machine

theorem assembleTokens_mnemonic (cfg : Config) {op : Opcode} (h : op ≠ .psh) (toks : List Token) :
    assembleTokens cfg (mnemonic op :: toks) = prependCells [cfg.opcodes.value op] (assembleTokens cfg toks) := by
  rw [assembleTokens.eq_def]
  simp only [resolve_mnemonic]

theorem assembleTokens_unknown_skip {cfg : Config} {tok : Token} (h : resolve tok = none)
    (hskip : cfg.unknownTokens = .skip) (toks : List Token) :
    assembleTokens cfg (tok :: toks) = assembleTokens cfg toks := by
  rw [assembleTokens.eq_def]
  simp only [h, hskip]

theorem assembleTokens_unknown_reject {cfg : Config} {tok : Token} (h : resolve tok = none)
    (hreject : cfg.unknownTokens = .reject) (toks : List Token) :
    assembleTokens cfg (tok :: toks) = .error .malformedProgram := by
  rw [assembleTokens.eq_def]
  simp only [h, hreject]

theorem assembleTokens_psh_no_literal {cfg : Config} {toks : List Token}
    (h : ∀ l ∈ toks.head?, literal cfg.cellW l = none) :
    assembleTokens cfg (mnemonic .psh :: toks) = .error (operandError cfg.unknownTokens) := by
  cases toks with
  | nil => rfl
  | cons lit toks => exact assembleTokens_psh_malformed (h lit rfl) toks

/-- Settles O49: the policy is looked at on an unknown token, and in the name of a missing operand's failure. -/
theorem unknownTokensByPolicy : Obligations.UnknownTokensByPolicy := by
  refine fun cfg tok toks => ⟨fun h => ⟨fun hskip => ?_, fun hreject => ?_⟩, fun h => ⟨fun hskip => ?_, fun hreject => ?_⟩⟩
  · exact assembleTokens_unknown_skip h hskip toks
  · exact assembleTokens_unknown_reject h hreject toks
  · rw [assembleTokens_psh_no_literal h, hskip]
    rfl
  · rw [assembleTokens_psh_no_literal h, hreject]
    rfl

/-- How a program that assembles begins: with a mnemonic of a one-cell instruction, with PSH and a literal, or with a token
that is skipped. -/
theorem assembleTokens_cons_ok {cfg : Config} {tok : Token} {toks : List Token} {cells : List Int}
    (h : assembleTokens cfg (tok :: toks) = .ok cells) :
    (∃ op out, op ≠ .psh ∧ assembleTokens cfg toks = .ok out ∧ cells = cfg.opcodes.value op :: out) ∨
      (∃ lit toks' v out, toks = lit :: toks' ∧ literal cfg.cellW lit = some v ∧ assembleTokens cfg toks' = .ok out ∧
        cells = cfg.opcodes.psh :: v :: out) ∨
      assembleTokens cfg toks = .ok cells := by
  cases hres : resolve tok with
  | none =>
    cases hpolicy : cfg.unknownTokens with
    | skip => exact .inr (.inr ((assembleTokens_unknown_skip hres hpolicy toks).symm.trans h))
    | reject =>
      rw [assembleTokens_unknown_reject hres hpolicy] at h
      cases h
  | some op =>
    obtain rfl := resolve_eq_some.1 hres
    by_cases hop : op = .psh
    · subst hop
      cases toks with
      | nil => cases h
      | cons lit toks =>
        cases hlit : literal cfg.cellW lit with
        | none =>
          rw [assembleTokens_psh_malformed hlit] at h
          cases h
        | some v =>
          rw [assembleTokens_psh_literal hlit, prependCells_ok] at h
          obtain ⟨out, hout, rfl⟩ := h
          exact .inr (.inl ⟨lit, toks, v, out, rfl, hlit, hout, rfl⟩)
    · rw [assembleTokens_mnemonic cfg hop, prependCells_ok] at h
      obtain ⟨out, hout, rfl⟩ := h
      exact .inl ⟨op, out, hop, hout, rfl⟩

/-- Every opcode but PSH's is a whole instruction. -/
theorem exists_instr_of_opcode (w : Nat) (m : OpcodeMap) {op : Opcode} (h : op ≠ .psh) :
    ∃ i : Instr, i.wellFormed w = true ∧ encode m i = [m.value op] := by
  cases op with
  | psh => contradiction
  | pop => exact ⟨.pop, rfl, rfl⟩
  | add => exact ⟨.add, rfl, rfl⟩
  | sub => exact ⟨.sub, rfl, rfl⟩
  | mul => exact ⟨.mul, rfl, rfl⟩
  | div => exact ⟨.div, rfl, rfl⟩
  | set => exact ⟨.set, rfl, rfl⟩
  | hlt => exact ⟨.hlt, rfl, rfl⟩

theorem encodeAll_cons (m : OpcodeMap) (i : Instr) (is : List Instr) :
    encodeAll m (i :: is) = encode m i ++ encodeAll m is := rfl

/-- A stream that the assembler produces is the encoding of well-formed instructions (R86). -/
theorem assembleTokens_ok_encodeAll {cfg : Config} {toks : List Token} {cells : List Int}
    (h : assembleTokens cfg toks = .ok cells) :
    ∃ is : List Instr, (∀ i ∈ is, i.wellFormed cfg.cellW = true) ∧ cells = encodeAll cfg.opcodes is := by
  induction hlen : toks.length using Nat.strong_induction_on generalizing toks cells with
  | _ len ih =>
    cases toks with
    | nil =>
      cases h
      exact ⟨[], by simp, rfl⟩
    | cons tok toks =>
      rw [List.length_cons] at hlen
      rcases assembleTokens_cons_ok h with ⟨op, out, hop, hout, rfl⟩ | ⟨lit, toks', v, out, rfl, hlit, hout, rfl⟩ | hout
      · obtain ⟨is, his, rfl⟩ := ih _ (by omega) hout rfl
        obtain ⟨i, hi, henc⟩ := exists_instr_of_opcode cfg.cellW cfg.opcodes hop
        exact ⟨i :: is, List.forall_mem_cons.2 ⟨hi, his⟩, by rw [encodeAll_cons, henc]; rfl⟩
      · rw [List.length_cons] at hlen
        obtain ⟨is, his, rfl⟩ := ih _ (by omega) hout rfl
        have himm : (Instr.psh v).wellFormed cfg.cellW = true := decide_eq_true (literal_eq_some.1 hlit).1
        exact ⟨.psh v :: is, List.forall_mem_cons.2 ⟨himm, his⟩, rfl⟩
      · exact ih _ (by omega) hout rfl

theorem encodeAll_representable {w : Nat} {m : OpcodeMap} {is : List Instr} (hm : m.wellFormed w = true)
    (his : ∀ i ∈ is, i.wellFormed w = true) : ∀ v ∈ encodeAll m is, Representable w v := by
  intro v hv
  obtain ⟨i, hi, hv⟩ := List.mem_flatMap.1 hv
  exact encode_representable hm (his i hi) v hv

/-- The walk over encodings meets instructions alone. -/
theorem predecode_encodeAll {w : Nat} {m : OpcodeMap} (hm : m.wellFormed w = true) (idx : Nat) (is : List Instr) :
    ∀ e ∈ predecode m idx (encodeAll m is), ∃ idx' i, e = .instr idx' i := by
  induction is generalizing idx with
  | nil => simp [encodeAll, predecode]
  | cons i is ih =>
    rw [encodeAll_cons, predecode_of_decode idx (decode_encode hm i _)]
    exact List.forall_mem_cons.2 ⟨⟨idx, i, rfl⟩, ih _⟩

/-- What the assembler produces under legal parameters. -/
theorem assembleTokens_sound {cfg : Config} {toks : List Token} {cells : List Int} (hcfg : cfg.wellFormed = true)
    (h : assembleTokens cfg toks = .ok cells) :
    (∃ is : List Instr, (∀ i ∈ is, i.wellFormed cfg.cellW = true) ∧ cells = encodeAll cfg.opcodes is) ∧
      (∀ v ∈ cells, Representable cfg.cellW v) ∧ ∀ e ∈ predecode cfg.opcodes 0 cells, ∃ idx i, e = .instr idx i := by
  obtain ⟨-, -, -, -, -, hm⟩ := Config.bounds hcfg
  obtain ⟨is, his, rfl⟩ := assembleTokens_ok_encodeAll h
  exact ⟨⟨is, his, rfl⟩, encodeAll_representable hm his, predecode_encodeAll hm 0 is⟩

/-- Settles O51: the loop puts each instruction's cells before those of the tokens after it, and passes failures on. -/
theorem assembledStreamsDecode : Obligations.AssembledStreamsDecode := by
  refine ⟨fun _ => rfl, fun cfg op toks hop => ?_, fun cfg tok v toks hlit => ?_, fun _ _ => ⟨rfl, rfl⟩,
    fun _ _ _ => assembleTokens_sound⟩
  · rw [assembleTokens_mnemonic cfg hop]
    exact ⟨fun out h => prependCells_ok.2 ⟨out, h, rfl⟩, fun e h => prependCells_error.2 h⟩
  · rw [assembleTokens_psh_literal hlit]
    exact ⟨fun out h => prependCells_ok.2 ⟨out, h, rfl⟩, fun e h => prependCells_error.2 h⟩

end Sys2Proof.Machine

/-! ### The codes of the causes (O32), and the causes of booted runs (O52) -/

namespace Sys2Proof.Machine

/-- Settles O32: a table of eight rows. -/
theorem haltCauseCodes : Obligations.HaltCauseCodes := by
  refine ⟨rfl, fun c => ?_⟩
  cases c <;> decide

/-- What every step keeps, a run keeps. -/
theorem runSteps_keeps {P : State → Prop} (hstep : ∀ s t, P s → step s = .next t → P t) {k : Nat} {s u : State} (hs : P s)
    (h : runSteps k s = .next u) : P u := by
  induction k generalizing s with
  | zero =>
    cases h
    exact hs
  | succ k ih =>
    cases hst : step s with
    | next t =>
      rw [runSteps_succ k hst] at h
      exact ih (hstep s t hs hst) h
    | fault f => simp [runSteps, hst] at h
    | refused r => simp [runSteps, hst] at h

/-- The causes of O52: never UnknownOpcode, and MissingHalt at N alone. -/
def CauseIsLegal (s : State) : Prop :=
  s.haltCause ≠ .unknownOpcode ∧ (s.haltCause = .missingHalt → s.ip = s.n)

/-- The state of a run of a program all of whose entries are instructions. -/
structure RunsInstructions (cells : List Int) (s : State) : Prop where
  inv : s.Inv
  stream : s.imem.slice 0 s.streamLen = some cells
  entries : ∀ e ∈ predecode s.cfg.opcodes 0 cells, ∃ idx i, e = .instr idx i
  walk : OnWalk s.cfg.opcodes cells s.ip
  cause : CauseIsLegal s

/-- An instruction that the fetch found raises neither of the fetch's own causes: PSH's operand cell was inside the stream. -/
theorem effect_halt_ne_fetch_cause {s : State} {i : Instr} {c : HaltCause} (hf : s.fetch = .instr i)
    (h : effect i s = .error (.halt c)) : c ≠ .unknownOpcode ∧ c ≠ .missingHalt := by
  have hmem := effect_halt_mem_causesOf h
  obtain ⟨⟨-, hinside⟩, -⟩ := State.fetch_instr hf
  cases i with
  | psh imm =>
    rcases pshEffect_halt.1 h with ⟨hend, -⟩ | ⟨-, -, rfl⟩
    · simp only [Instr.opcode, Opcode.length] at hinside
      omega
    · decide
  | _ => constructor <;> rintro rfl <;> simp [causesOf] at hmem

/-- Where every entry is an instruction the fetch halts at the stream's end alone. -/
theorem RunsInstructions.ip_eq_n_of_fetch_halt {cells : List Int} {s : State} {c : HaltCause}
    (hs : RunsInstructions cells s) (hf : s.fetch = .halt c) : s.ip = s.n ∧ c = .missingHalt := by
  rcases hs.walk with hend | ⟨e, he, hip⟩
  · have hn : s.ip = s.n := by rw [hend, s.n_eq, Memory.length_of_slice hs.stream]
    have hpast := State.fetch_of_pastEnd (State.pastEnd_iff.2 (by omega : ¬(0 ≤ s.ip ∧ s.ip < s.n)))
    exact ⟨hn, (Fetched.halt.inj (hpast.symm.trans hf)).symm⟩
  · obtain ⟨idx, i, rfl⟩ := hs.entries e he
    have hfetch := State.fetch_of_mem_predecode hs.inv.ipNonneg hs.inv.ipLe hs.stream he hip
    cases hfetch.symm.trans hf

theorem RunsInstructions.cause_step {cells : List Int} {s t : State} (hs : RunsInstructions cells s)
    (h : step s = .next t) : CauseIsLegal t := by
  rcases step_next.1 h with ⟨-, rfl⟩ | ⟨hr, -, ⟨i, hf, hex⟩ | ⟨c, hf, rfl⟩⟩
  · exact hs.cause
  · rcases exec_next.1 hex with hok | ⟨c, hc, rfl⟩
    · obtain ⟨records, hframe, -⟩ := effect_completesInto hok
      have hnormal : t.haltCause = .normal := hframe.haltCause.trans (hs.inv.causeZero hr)
      simp [CauseIsLegal, hnormal]
    · obtain ⟨hunknown, hmissing⟩ := effect_halt_ne_fetch_cause hf hc
      exact ⟨hunknown, fun heq => absurd heq hmissing⟩
  · obtain ⟨hn, rfl⟩ := hs.ip_eq_n_of_fetch_halt hf
    exact ⟨by simp, fun _ => hn⟩

theorem RunsInstructions.step {cells : List Int} {s t : State} (hs : RunsInstructions cells s)
    (h : step s = .next t) : RunsInstructions cells t := by
  have hfixed := stepKeepsTheFixedState s t h
  exact {
    inv := stepKeepsTheInvariant s t hs.inv h
    stream := by rw [hfixed.imem, hfixed.streamLen]; exact hs.stream
    entries := by rw [hfixed.cfg]; exact hs.entries
    walk := by rw [hfixed.cfg]; exact OnWalk.step hs.inv hs.stream hs.walk h
    cause := hs.cause_step h }

/-- A booted machine runs the stream its source assembles to (R177). -/
theorem State.boot_ok {s t : State} {source : Option (List Char)} (h : s.boot source = .ok t) :
    ∃ text cells, source = some text ∧ assembleTokens s.cfg (tokenize text) = .ok cells ∧
      cells.length ≤ s.cfg.imemDepth ∧ s.start cells = .ok t := by
  unfold State.boot at h
  cases source with
  | none => cases h
  | some text =>
    cases hasm : assembleTokens s.cfg (tokenize text) with
    | error e => simp [assemble, hasm] at h
    | ok cells =>
      simp only [assemble, hasm] at h
      refine ⟨text, cells, rfl, hasm, ?_, h⟩
      by_contra hlong
      rw [State.start, if_neg hlong] at h
      cases h

theorem State.boot_runsInstructions {s t : State} {source : Option (List Char)} (hs : s.HostInForm)
    (h : s.boot source = .ok t) : ∃ cells, RunsInstructions cells t := by
  obtain ⟨text, cells, -, hasm, hfits, hstart⟩ := State.boot_ok h
  obtain ⟨-, hcells, hentries⟩ := assembleTokens_sound hs.config hasm
  obtain ⟨t', hstart', hinv, hr, hip, hn, hread⟩ := startLoadsTheStream s cells hs hcells hfits
  obtain rfl := Except.ok.inj (hstart.symm.trans hstart')
  have hcfg : t.cfg = s.cfg := by
    rw [State.start_of_fits hfits] at hstart
    cases hstart
    rfl
  have hlen : t.streamLen = cells.length := Int.ofNat.inj hn
  refine ⟨cells, hinv, ?_, hcfg ▸ hentries, hip ▸ onWalk_zero _ _, ?_⟩
  · rw [hlen]
    exact Memory.slice_of_read fun k hk => by rw [Nat.zero_add, hread k hk]
  · simp [CauseIsLegal, hinv.causeZero hr]

/-- Settles O52: a boot starts on instructions alone, every step stays on them, and the fetch halts at their end alone. -/
theorem bootedRunsMeetNoIllegalCell : Obligations.BootedRunsMeetNoIllegalCell := by
  intro s t u source k hs hboot hrun
  obtain ⟨cells, hstart⟩ := State.boot_runsInstructions hs hboot
  exact (runSteps_keeps (fun _ _ => RunsInstructions.step) hstart hrun).cause

end Sys2Proof.Machine
